-- ==== Sys2Proof/Config.lean ====
section
/-! DEFINITION. Config: what an implementation of B2CORE fixes (the variant and its sizes, rules R3 and R8 of
00_scope.md), and the values the spec leaves free (R60 of 20_memory.md, R259 of 70_reset_and_hazards.md). -/

namespace Sys2Proof

/-- R3: the parameter VARIANT, fixed when an instance is built. `B` is BLAKE2b, `S` is BLAKE2s. -/
inductive Variant
  | B
  | S
  deriving DecidableEq, Repr

/-- R8: word width in bits, `w`. -/
def Variant.w : Variant → Nat
  | .B => 64
  | .S => 32

/-- R8: word width in bytes, `WB`. -/
def Variant.wb : Variant → Nat
  | .B => 8
  | .S => 4

/-- R8, R10: message block in bytes, `BB = 16·WB`. -/
def Variant.bb (v : Variant) : Nat := 16 * v.wb

/-- R8: maximum digest length in bytes, `NN_MAX = 8·WB`. -/
def Variant.nnMax (v : Variant) : Nat := 8 * v.wb

/-- R8, R9: maximum key length in bytes, `KK_MAX`, equal to `NN_MAX`. -/
def Variant.kkMax (v : Variant) : Nat := v.nnMax

/-- R8, R145: rounds per compression, `ROUNDS`. -/
def Variant.rounds : Variant → Nat
  | .B => 12
  | .S => 10

theorem Variant.w_eq (v : Variant) : v.w = 8 * v.wb := by cases v <;> rfl

theorem Variant.bb_pos (v : Variant) : 0 < v.bb := by cases v <;> decide

/-- R60: which 4 KiB page of the host's bus the platform gives the window. Free: no rule says. -/
opaque Config.b2corePage : Nat

/-- R60: the window's base address B2CORE_BASE, 4 KiB aligned. -/
def Config.b2coreBase : Nat := 4096 * Config.b2corePage

/-- R259: the unspecified 32-bit value that draw number `n` of a read while busy returns. Free: it has no body,
so nothing can be proved of its value (log entry 3). -/
opaque Config.freeRead : Nat → BitVec 32

end Sys2Proof
end

