-- ==== Sys2Proof/Word.lean ====
section
/-! DEFINITION. Word: bytes, the `w`-bit word of a variant, and the 4-lane vector of words (R14, R19, R28, R120).
Wrapping addition and exclusive or on words are `+` and `^^^` of `BitVec` (R15). -/

namespace Sys2Proof

abbrev Byte := BitVec 8

/-- R14, R19: an unsigned `w`-bit word. -/
abbrev Word (v : Variant) := BitVec v.w

/-- R120: a vector, 4 lanes of words, lane 0 to lane 3. -/
structure Lanes (v : Variant) where
  x0 : Word v
  x1 : Word v
  x2 : Word v
  x3 : Word v
  deriving DecidableEq, Repr

/-- Lane `j` of a vector, `x.j` of R120. -/
def Lanes.get {v : Variant} (x : Lanes v) : Fin 4 → Word v
  | 0 => x.x0
  | 1 => x.x1
  | 2 => x.x2
  | 3 => x.x3

/-- The vector whose lane `j` is `f j`. -/
def Lanes.ofFn {v : Variant} (f : Fin 4 → Word v) : Lanes v :=
  { x0 := f 0, x1 := f 1, x2 := f 2, x3 := f 3 }

def Lanes.zero (v : Variant) : Lanes v := { x0 := 0, x1 := 0, x2 := 0, x3 := 0 }

end Sys2Proof
end

