-- ==== Sys2Proof/Syntax.lean ====
section
/-! DEFINITION. Syntax: the ten instructions of spec/opcode_table.json, and the two kinds of code word they are
written in (R90 of 30_encoding.md). -/

namespace Sys2Proof

/-- R28, R102: the six vector registers, index 0 to 5. Indexes 6 and 7 are reserved (R104) and have no name here,
so no instruction can hold one; the decoder refuses them. -/
inductive VReg
  | VA
  | VB
  | VC
  | VD
  | VX
  | VY
  deriving DecidableEq, Repr

/-- One constructor per row of spec/opcode_table.json: five host commands (R91) and five ALU micro-ops (R100). -/
inductive Instr
  /-- `INIT NN, KK` (R170). -/
  | init (nn kk : BitVec 7)
  /-- `UPDATE LEN` (R175). -/
  | update (len : BitVec 8)
  /-- `FINAL` (R185). -/
  | final
  /-- `COMPARE LEN` (R205). -/
  | compare (len : BitVec 8)
  /-- `ABORT` (R190). -/
  | abort
  /-- `VADD DST, SRC1, SRC2` (R121). -/
  | vadd (dst src1 src2 : VReg)
  /-- `VXOR DST, SRC1, SRC2` (R122). -/
  | vxor (dst src1 src2 : VReg)
  /-- `VROTR DST, SRC1, #AMT` (R123). -/
  | vrotr (dst src1 : VReg) (amt : BitVec 6)
  /-- `VSHL DST, SRC1, #K` (R124). -/
  | vshl (dst src1 : VReg) (k : BitVec 2)
  /-- `VSHR DST, SRC1, #K` (R125). -/
  | vshr (dst src1 : VReg) (k : BitVec 2)
  deriving DecidableEq, Repr

/-- R90: a host command is one 32-bit word, an ALU micro-op one 16-bit word. -/
inductive CodeWord
  | cmd32 (cw : BitVec 32)
  | uop16 (u : BitVec 16)
  deriving DecidableEq, Repr

end Sys2Proof
end

