-- ==== Sys2Proof/WellFormed.lean ====
section
/-! DEFINITION. WellFormed: the checks an instruction term must pass to have an encoding (R103 of 30_encoding.md).
The field widths of R92 and R102, and the reserved register indexes of R104, are in the types of Syntax. -/

namespace Sys2Proof

/-- R102, R103: `AMT ≤ w − 1` for VROTR, `K ≠ 0` for VSHL and VSHR. The operand ranges of the host commands are
checked when the command runs, not here (R92). -/
def Instr.wf (v : Variant) : Instr → Bool
  | .init _ _ => true
  | .update _ => true
  | .final => true
  | .compare _ => true
  | .abort => true
  | .vadd _ _ _ => true
  | .vxor _ _ _ => true
  | .vrotr _ _ amt => decide (amt.toNat < v.w)
  | .vshl _ _ k => k != 0
  | .vshr _ _ k => k != 0

end Sys2Proof
end

