-- ==== Sys2Proof/Decode.lean ====
section
/-! DEFINITION. Decode: the decoder of the two encoding spaces, total and rejecting by name (R90 to R104 of
30_encoding.md), the encoder written from the same bit patterns, and the match/mask table of R93 and R101. -/

namespace Sys2Proof

/-- Why a word is no instruction. The first two are R94's illegal command words; the next five are the reserved
micro-op encodings of R103 and R104; the last is no word at all (R90: two lengths, 32 and 16 bits). -/
inductive Reject
  /-- R94: `OPC = 0x0` or `OPC` in 0x6..0xF. -/
  | illegalOpcode
  /-- R94: a non-zero reserved bit under a defined `OPC`. -/
  | commandReservedBit
  /-- R103: `OP = 0x0` or `OP` in 0x5..0xF. -/
  | reservedOp
  /-- R103: a non-zero bit in a field marked 0 in R100. -/
  | microOpReservedBit
  /-- R104: register index 6 or 7. -/
  | reservedRegister
  /-- R103: `AMT ≥ w`. -/
  | amountTooLarge
  /-- R103: `K = 0`. -/
  | zeroShift
  /-- R90: neither two bytes nor four. -/
  | wrongLength
  deriving DecidableEq, Repr

/-- R102: the register a 3-bit field names; none for the reserved indexes 6 and 7 (R104). -/
def VReg.ofBits (b : BitVec 3) : Option VReg :=
  match b.toNat with
  | 0 => some .VA
  | 1 => some .VB
  | 2 => some .VC
  | 3 => some .VD
  | 4 => some .VX
  | 5 => some .VY
  | _ => none

/-- R91 to R94: a host command word. `NN = cw[6:0]`, `KK = cw[14:8]`, `LEN = cw[7:0]`. -/
def decodeCmd (cw : BitVec 32) : Except Reject Instr :=
  match (cw.extractLsb' 28 4).toNat with
  | 1 =>
    if cw &&& 0x0FFF8080#32 = 0 then .ok (.init (cw.extractLsb' 0 7) (cw.extractLsb' 8 7))
    else .error .commandReservedBit
  | 2 => if cw &&& 0x0FFFFF00#32 = 0 then .ok (.update (cw.extractLsb' 0 8)) else .error .commandReservedBit
  | 3 => if cw &&& 0x0FFFFFFF#32 = 0 then .ok .final else .error .commandReservedBit
  | 4 => if cw &&& 0x0FFFFF00#32 = 0 then .ok (.compare (cw.extractLsb' 0 8)) else .error .commandReservedBit
  | 5 => if cw &&& 0x0FFFFFFF#32 = 0 then .ok .abort else .error .commandReservedBit
  | _ => .error .illegalOpcode

/-- R100, form RR: `DST = u[11:9]`, `SRC1 = u[8:6]`, `SRC2 = u[5:3]`, bits [2:0] zero. -/
def decodeRR (u : BitVec 16) (op : VReg → VReg → VReg → Instr) : Except Reject Instr :=
  if u.extractLsb' 0 3 = 0 then
    match VReg.ofBits (u.extractLsb' 9 3), VReg.ofBits (u.extractLsb' 6 3), VReg.ofBits (u.extractLsb' 3 3) with
    | some d, some a, some b => .ok (op d a b)
    | _, _, _ => .error .reservedRegister
  else .error .microOpReservedBit

/-- R100, form RI: `AMT = u[5:0]`, which must be below `w` (R103). -/
def decodeRI (v : Variant) (u : BitVec 16) : Except Reject Instr :=
  match VReg.ofBits (u.extractLsb' 9 3), VReg.ofBits (u.extractLsb' 6 3) with
  | some d, some a =>
    if (u.extractLsb' 0 6).toNat < v.w then .ok (.vrotr d a (u.extractLsb' 0 6)) else .error .amountTooLarge
  | _, _ => .error .reservedRegister

/-- R100, form SH: bits [5:3] zero, `DIR = u[2]` (0 is VSHL, 1 is VSHR), `K = u[1:0]`, which must not be 0 (R103). -/
def decodeSH (u : BitVec 16) : Except Reject Instr :=
  if u.extractLsb' 3 3 = 0 then
    match VReg.ofBits (u.extractLsb' 9 3), VReg.ofBits (u.extractLsb' 6 3) with
    | some d, some a =>
      if u.extractLsb' 0 2 = 0 then .error .zeroShift
      else if u.extractLsb' 2 1 = 0 then .ok (.vshl d a (u.extractLsb' 0 2))
      else .ok (.vshr d a (u.extractLsb' 0 2))
    | _, _ => .error .reservedRegister
  else .error .microOpReservedBit

/-- R100 to R104: an ALU micro-op word, for an instance of variant `v`. -/
def decodeUop (v : Variant) (u : BitVec 16) : Except Reject Instr :=
  match (u.extractLsb' 12 4).toNat with
  | 1 => decodeRR u .vadd
  | 2 => decodeRR u .vxor
  | 3 => decodeRI v u
  | 4 => decodeSH u
  | _ => .error .reservedOp

/-- R90: the two encoding spaces; nothing but the word's length tells them apart. -/
def decode (v : Variant) : CodeWord → Except Reject Instr
  | .cmd32 cw => decodeCmd cw
  | .uop16 u => decodeUop v u

/-- The code word that a string of bytes is, least significant byte first: R64 for a command's 32-bit bus word. DESIGN
CHOICE for a 16-bit micro-op word (log entry 21): the spec gives it no byte order, since it is a ROM entry and never
on the bus (R90). Safe: no step and no statement reads a micro-op from bytes. -/
def CodeWord.ofBytes : List Byte → Option CodeWord
  | [b0, b1] => some (.uop16 (b1 ++ b0))
  | [b0, b1, b2, b3] => some (.cmd32 (b3 ++ b2 ++ b1 ++ b0))
  | _ => none

/-- Total on any bytes: two bytes are a micro-op, four a command, anything else is rejected (R90). -/
def decodeBytes (v : Variant) (bytes : List Byte) : Except Reject Instr :=
  match CodeWord.ofBytes bytes with
  | some c => decode v c
  | none => .error .wrongLength

/-- R102: the 3-bit field that names a register. -/
def VReg.bits : VReg → BitVec 3
  | .VA => 0
  | .VB => 1
  | .VC => 2
  | .VD => 3
  | .VX => 4
  | .VY => 5

/-- R101, form SH: `DST`, `SRC1` and `K` in their places under the pattern of the operation. -/
def encodeSH (pattern : BitVec 16) (d a : VReg) (k : BitVec 2) : CodeWord :=
  .uop16 (pattern ||| d.bits.setWidth 16 <<< 9 ||| a.bits.setWidth 16 <<< 6 ||| k.setWidth 16)

/-- R101, form RR: `DST`, `SRC1` and `SRC2` in their places under the pattern of the operation. -/
def encodeRR (pattern : BitVec 16) (d a b : VReg) : CodeWord :=
  .uop16 (pattern ||| d.bits.setWidth 16 <<< 9 ||| a.bits.setWidth 16 <<< 6 ||| b.bits.setWidth 16 <<< 3)

/-- The encoder, from the bit patterns and field places of R91 and R101. -/
def encode : Instr → CodeWord
  | .init nn kk => .cmd32 (0x10000000#32 ||| kk.setWidth 32 <<< 8 ||| nn.setWidth 32)
  | .update len => .cmd32 (0x20000000#32 ||| len.setWidth 32)
  | .final => .cmd32 0x30000000#32
  | .compare len => .cmd32 (0x40000000#32 ||| len.setWidth 32)
  | .abort => .cmd32 0x50000000#32
  | .vadd d a b => encodeRR 0x1000#16 d a b
  | .vxor d a b => encodeRR 0x2000#16 d a b
  | .vrotr d a amt =>
    .uop16 (0x3000#16 ||| d.bits.setWidth 16 <<< 9 ||| a.bits.setWidth 16 <<< 6 ||| amt.setWidth 16)
  | .vshl d a k => encodeSH 0x4000#16 d a k
  | .vshr d a k => encodeSH 0x4004#16 d a k

/-- One row of the match/mask table of R93 (commands). -/
structure CommandRow where
  mnemonic : String
  pattern : BitVec 32
  mask : BitVec 32
  deriving DecidableEq, Repr

/-- One row of the match/mask table of R101 (micro-ops). -/
structure MicroOpRow where
  mnemonic : String
  pattern : BitVec 16
  mask : BitVec 16
  deriving DecidableEq, Repr

/-- R93. -/
def commandTable : List CommandRow :=
  [ { mnemonic := "INIT", pattern := 0x10000000, mask := 0xFFFF8080 },
    { mnemonic := "UPDATE", pattern := 0x20000000, mask := 0xFFFFFF00 },
    { mnemonic := "FINAL", pattern := 0x30000000, mask := 0xFFFFFFFF },
    { mnemonic := "COMPARE", pattern := 0x40000000, mask := 0xFFFFFF00 },
    { mnemonic := "ABORT", pattern := 0x50000000, mask := 0xFFFFFFFF } ]

/-- R101. -/
def microOpTable : List MicroOpRow :=
  [ { mnemonic := "VADD", pattern := 0x1000, mask := 0xF007 },
    { mnemonic := "VXOR", pattern := 0x2000, mask := 0xF007 },
    { mnemonic := "VROTR", pattern := 0x3000, mask := 0xF000 },
    { mnemonic := "VSHL", pattern := 0x4000, mask := 0xF03C },
    { mnemonic := "VSHR", pattern := 0x4004, mask := 0xF03C } ]

def CommandRow.fits (row : CommandRow) (cw : BitVec 32) : Bool := cw &&& row.mask == row.pattern

def MicroOpRow.fits (row : MicroOpRow) (u : BitVec 16) : Bool := u &&& row.mask == row.pattern

/-- The row of spec/opcode_table.json an instruction stands for. -/
def Instr.mnemonic : Instr → String
  | .init _ _ => "INIT"
  | .update _ => "UPDATE"
  | .final => "FINAL"
  | .compare _ => "COMPARE"
  | .abort => "ABORT"
  | .vadd _ _ _ => "VADD"
  | .vxor _ _ _ => "VXOR"
  | .vrotr _ _ _ => "VROTR"
  | .vshl _ _ _ => "VSHL"
  | .vshr _ _ _ => "VSHR"

/-- The code word of an opcode-table row's bits, numbered as the table numbers them: up to 16 bits a micro-op, up
to 32 a command (R90). -/
def CodeWord.ofTable (nbits w : Nat) : Option CodeWord :=
  if nbits ≤ 16 then some (.uop16 (BitVec.ofNat 16 w))
  else if nbits ≤ 32 then some (.cmd32 (BitVec.ofNat 32 w))
  else none

/-- What the decoder reads from an opcode-table word, for the variant of State.reset (BLAKE2b, log entry 1). -/
def decodeTableWord (nbits w : Nat) : Option Instr :=
  match CodeWord.ofTable nbits w with
  | some c => (decode .B c).toOption
  | none => none

end Sys2Proof
end

