-- ==== Sys2Proof/Machine/State.lean ====
section
/-! DEFINITION. State: everything the spec gives the block (10_state.md, R160 of 41_compression.md), the accesses
the outside world makes, the reasons a step stops, and the state after reset (R50). -/

namespace Sys2Proof.Machine

/-- R21: the life-cycle phase. Values 5 to 7 are never taken (U14). -/
inductive Phase
  /-- 0: no context. -/
  | none
  /-- 1: context set up by INIT, no message byte absorbed. -/
  | fresh
  /-- 2: at least one message byte absorbed. -/
  | absorbing
  /-- 3: FINAL done, the digest register is valid. -/
  | finalized
  /-- 4: an error was recorded; only INIT, ABORT and reset leave this phase. -/
  | failed
  deriving DecidableEq, Repr

/-- R220: the error codes of `S.err`. Codes 6 to 15 are never produced (U14). -/
inductive ErrCode
  | none
  | illegal
  | param
  | seq
  | overflow
  | busy
  deriving DecidableEq, Repr

/-- R28: the vector register file, six registers of four lanes. `VA` to `VD` hold the working vector `v` row by
row, `VX` and `VY` the two message-word vectors. -/
structure VFile (v : Variant) where
  VA : Lanes v
  VB : Lanes v
  VC : Lanes v
  VD : Lanes v
  VX : Lanes v
  VY : Lanes v
  deriving DecidableEq, Repr

/-- R160: the compression sequencer: `seq.busy`, the round index `seq.r`, the position `seq.pos` within the round
(0 to 35: 34 micro-ops and 2 gathers). `issue` is the model's own: the micro-op word at the ALU's input, which the
sequencer takes from the microprogram ROM (log entry 8). -/
structure Seq where
  busy : Bool
  r : BitVec 4
  pos : BitVec 6
  issue : Option (BitVec 16)
  deriving DecidableEq, Repr

/-- The state whose type depends on the variant: the chaining value `S.h` (R22), the block buffer `S.buf` (R23),
the vector register file (R28) and the sequencer (R160). -/
structure Datapath (v : Variant) where
  h : Vector (Word v) 8
  buf : Vector Byte v.bb
  vregs : VFile v
  seq : Seq
  deriving DecidableEq, Repr

/-- The width of a host access in bits; only 32 is served (R62, R63). -/
inductive AccessWidth
  | bits8
  | bits16
  | bits32
  | bits64
  deriving DecidableEq, Repr

/-- What happens at the block from outside, and the engine's turns among it, in the order the bus and the clock
deliver them (R13, R76). Offsets are relative to B2CORE_BASE (R60). -/
inductive BusEvent
  /-- `MemRead(B2CORE_BASE + off, width)`. -/
  | read (off : BitVec 12) (width : AccessWidth)
  /-- `MemWrite(B2CORE_BASE + off, width, val)`. Only a 32-bit write has an effect, so 32 bits of data are kept. -/
  | write (off : BitVec 12) (width : AccessWidth) (val : BitVec 32)
  /-- The pending command's `T_CMD` has elapsed: the engine completes it (R256; log entry 2). -/
  | engine
  /-- The platform asserts and releases reset (R250). -/
  | reset
  deriving DecidableEq, Repr

/-- What the block answered to the last host access (log entry 4). -/
inductive BusResp
  /-- No access since reset. -/
  | idle
  /-- A write was accepted by the bus. -/
  | ack
  /-- A read returned this word. -/
  | data (word : BitVec 32)
  /-- R63, R246: the bus error response. -/
  | error
  deriving DecidableEq, Repr

/-- The host-writable bytes of the address space (R34, R60, R72), as (window offset, byte) cells, offsets strictly
rising, no cell 0: an unlisted offset reads 0, the reset contents R50 gives. -/
abbrev Memory := List Host.Cell

/-- The whole block, and the outside world's accesses still to come. -/
structure State where
  /-- VARIANT (R3): fixed when the instance is built; no step changes it (log entry 1). -/
  variant : Variant
  /-- `S.h`, `S.buf`, the vector registers and the sequencer. -/
  dp : Datapath variant
  /-- `S.phase` (R21). -/
  phase : Phase
  /-- `S.t`, the byte counter (R24). -/
  t : BitVec 64
  /-- `S.nn`, the digest length (R25). -/
  nn : BitVec 7
  /-- `S.dig[0..63]`, the digest register (R30). -/
  dig : Vector Byte 64
  /-- `S.eq`, the result of the last COMPARE (R31). -/
  eq : Bool
  /-- `S.cmpv`: `S.eq` is meaningful (R31). -/
  cmpv : Bool
  /-- `S.err` (R32). -/
  err : ErrCode
  /-- `S.busy` (R33). -/
  busy : Bool
  /-- `S.viol` (R33). -/
  viol : Bool
  /-- `S.pending`, the command word being performed, meaningful only while busy (R33). -/
  pending : BitVec 32
  /-- The staging windows: `S.key` at 0x040, `S.din` at 0x080, `S.ref` at 0x100 (R34, R64). -/
  mem : Memory
  /-- The events still to come, oldest first (the model's own field, log entry 2). -/
  bus : List BusEvent
  /-- The answer to the last host access (the model's own field, log entry 4). -/
  resp : BusResp
  /-- How many unspecified values have been drawn (the model's own field, log entry 3). -/
  draws : Nat
  deriving DecidableEq, Repr

/-- The reasons the machine stops with a fault. There are none: "Nothing is `stuck`" (U18); the spec's errors are
failure entries (R230) and its bus error is an answer on the bus (R63), and after both the block goes on. -/
inductive Fault
  deriving DecidableEq, Repr

/-- The reasons a step is refused. -/
inductive Refusal
  /-- Raised by an arm of `exec` whose instruction has no meaning yet. Safe. -/
  | notModelled (mnemonic : String)
  /-- Raised by the ALU as a unit for a reserved micro-op encoding: "a model refuses them" (R103, R104, R129).
  Safe: the microprogram ROM holds none. -/
  | reservedMicroOp (why : Reject)
  deriving DecidableEq, Repr

abbrev Outcome := Host.Outcome State Fault Refusal

def VFile.zero (v : Variant) : VFile v :=
  { VA := Lanes.zero v, VB := Lanes.zero v, VC := Lanes.zero v, VD := Lanes.zero v, VX := Lanes.zero v,
    VY := Lanes.zero v }

/-- R160: the sequencer at rest. -/
def Seq.idle : Seq := { busy := false, r := 0, pos := 0, issue := Option.none }

def Datapath.zero (v : Variant) : Datapath v :=
  { h := Vector.replicate 8 0, buf := Vector.replicate v.bb 0, vregs := VFile.zero v, seq := Seq.idle }

/-- R50: every field after reset, for an instance of either variant. -/
def State.resetOf (v : Variant) : State :=
  { variant := v, dp := Datapath.zero v, phase := .none, t := 0, nn := 0, dig := Vector.replicate 64 0, eq := false,
    cmpv := false, err := .none, busy := false, viol := false, pending := 0, mem := [], bus := [], resp := .idle,
    draws := 0 }

/-- R50: the machine right after reset; the BLAKE2b instance (log entry 1). -/
def State.reset : State := State.resetOf .B

end Sys2Proof.Machine
end

