-- ==== Sys2Proof/Machine/Constants.lean ====
section
/-! DEFINITION. Constants: the constant store (R35, R141 to R145 of 41_compression.md) and the microprogram ROM
(R151, R153). Nothing changes them. -/

namespace Sys2Proof.Machine

/-- R141, R142: the initialization vector `IV[0..7]`. -/
def iv : (v : Variant) → Vector (Word v) 8
  | .B => #v[0x6A09E667F3BCC908#64, 0xBB67AE8584CAA73B#64, 0x3C6EF372FE94F82B#64, 0xA54FF53A5F1D36F1#64,
             0x510E527FADE682D1#64, 0x9B05688C2B3E6C1F#64, 0x1F83D9ABFB41BD6B#64, 0x5BE0CD19137E2179#64]
  | .S => #v[0x6A09E667#32, 0xBB67AE85#32, 0x3C6EF372#32, 0xA54FF53A#32,
             0x510E527F#32, 0x9B05688C#32, 0x1F83D9AB#32, 0x5BE0CD19#32]

/-- R143: SIGMA, 10 rows of 16 message-word indexes, the same for both variants. -/
def sigmaTable : Vector (Vector (Fin 16) 16) 10 :=
  #v[#v[0, 1, 2, 3, 4, 5, 6, 7, 8, 9, 10, 11, 12, 13, 14, 15],
     #v[14, 10, 4, 8, 9, 15, 13, 6, 1, 12, 0, 2, 11, 7, 5, 3],
     #v[11, 8, 12, 0, 5, 2, 15, 13, 10, 14, 3, 6, 7, 1, 9, 4],
     #v[7, 9, 3, 1, 13, 12, 11, 14, 2, 6, 5, 10, 4, 0, 15, 8],
     #v[9, 0, 5, 7, 2, 4, 10, 15, 14, 1, 11, 12, 6, 8, 3, 13],
     #v[2, 12, 6, 10, 0, 11, 8, 3, 4, 13, 7, 5, 15, 14, 1, 9],
     #v[12, 5, 1, 15, 14, 13, 4, 10, 0, 7, 6, 3, 9, 2, 8, 11],
     #v[13, 11, 7, 14, 12, 1, 3, 9, 5, 0, 15, 4, 8, 6, 2, 10],
     #v[6, 15, 14, 9, 11, 3, 0, 8, 12, 2, 13, 7, 1, 4, 10, 5],
     #v[10, 2, 8, 4, 7, 6, 1, 5, 15, 11, 9, 14, 3, 12, 13, 0]]

/-- R145: round `r` uses row `SIGMA[r mod 10]`. -/
def sigma (r : Nat) (k : Fin 16) : Fin 16 := (sigmaTable[r % 10]'(Nat.mod_lt r (by decide)))[k]

/-- R144: the rotation constants, each a rotate-right amount. -/
def rc1 : Variant → Nat
  | .B => 32
  | .S => 16

def rc2 : Variant → Nat
  | .B => 24
  | .S => 12

def rc3 : Variant → Nat
  | .B => 16
  | .S => 8

def rc4 : Variant → Nat
  | .B => 63
  | .S => 7

/-- R151: the 14 micro-op words of G, in order. -/
def gMicroprogram : Variant → List (BitVec 16)
  | .B => [0x1008, 0x1020, 0x26C0, 0x36E0, 0x1498, 0x2250, 0x3258, 0x1008, 0x1028, 0x26C0, 0x36D0, 0x1498, 0x2250,
           0x327F]
  | .S => [0x1008, 0x1020, 0x26C0, 0x36D0, 0x1498, 0x2250, 0x324C, 0x1008, 0x1028, 0x26C0, 0x36C8, 0x1498, 0x2250,
           0x3247]

/-- One step of a round (R153): a gather of message words into VX and VY, or a micro-op word from the ROM. -/
inductive SeqItem
  /-- The gather before the column step, from SIGMA entries 0 to 7. -/
  | gatherColumn
  /-- The gather before the diagonal step, from SIGMA entries 8 to 15. -/
  | gatherDiagonal
  | uop (word : BitVec 16)
  deriving DecidableEq, Repr

/-- R153: the steps of one round, 2 gathers and 34 micro-ops. -/
def roundProgram (v : Variant) : List SeqItem :=
  [.gatherColumn] ++ (gMicroprogram v).map .uop ++ [.uop 0x4241, .uop 0x4482, .uop 0x46C3] ++
  [.gatherDiagonal] ++ (gMicroprogram v).map .uop ++ [.uop 0x4245, .uop 0x4486, .uop 0x46C7]

/-- R160, R266: positions in a round. -/
def roundLength : Nat := 36

end Sys2Proof.Machine
end

