-- ==== Sys2Proof/Machine/Ops.lean ====
section
/-! DEFINITION. Ops: the shared operations over memory, words and the context: byte order (R16, R64), rotation
(R15), the fill of the block buffer (R26), dropping a context (R190), and the failure entry with the way out of it
(R230, R232 of 60_exceptions.md). -/

namespace Sys2Proof.Machine

/-! ### Memory: the host-writable bytes of the window -/

/-- The byte at a window offset; 0 where nothing is listed (R50). -/
def Memory.read : Memory → Nat → Byte
  | [], _ => 0
  | c :: m, a => if c.1 = a then c.2 else Memory.read m a

/-- Puts a cell in its place by offset. -/
def Memory.insertCell : Memory → Host.Cell → Memory
  | [], c => [c]
  | d :: m, c => if c.1 < d.1 then c :: d :: m else d :: Memory.insertCell m c

/-- Stores a byte; storing 0, which an unlisted offset reads as, removes the cell. -/
def Memory.write (m : Memory) (a : Nat) (b : Byte) : Memory :=
  if b = 0 then m.filter (fun c => c.1 != a) else Memory.insertCell (m.filter (fun c => c.1 != a)) (a, b)

/-- The canonical form: offsets strictly rising, no cell that equals what an unlisted offset reads as. -/
abbrev Memory.wf (m : Memory) : Prop := List.Pairwise (fun c d => c.1 < d.1) m ∧ ∀ c ∈ m, c.2 ≠ 0

/-! ### Byte order -/

/-- R16: the number a little-endian byte string is. -/
def leNat : List Byte → Nat
  | [] => 0
  | b :: bs => b.toNat + 256 * leNat bs

/-- Byte `k` of a word, `(x >> 8k) mod 256` (R16, R64). -/
def byteOf {n : Nat} (x : BitVec n) (k : Nat) : Byte := (x >>> (8 * k)).setWidth 8

/-- R64: the 32-bit word at a window offset, least significant byte first. -/
def Memory.loadWord (m : Memory) (a : Nat) : BitVec 32 :=
  BitVec.ofNat 32 (leNat [Memory.read m a, Memory.read m (a + 1), Memory.read m (a + 2), Memory.read m (a + 3)])

/-- R64: `X[4j + i] <- v[8i+7:8i]` for `i` in 0..3. -/
def Memory.storeWord (m : Memory) (a : Nat) (x : BitVec 32) : Memory :=
  Memory.write (Memory.write (Memory.write (Memory.write m a (byteOf x 0)) (a + 1) (byteOf x 1)) (a + 2) (byteOf x 2))
    (a + 3) (byteOf x 3)

/-- Byte `j` of the block buffer. -/
def bufByte {v : Variant} (buf : Vector Byte v.bb) (j : Nat) : Byte := buf[j]?.getD 0

/-- R16, R29, R65, R126 (`from_le`): message word `m[i] = le_word(S.buf, i)`. -/
def leWord {v : Variant} (buf : Vector Byte v.bb) (i : Fin 16) : Word v :=
  BitVec.ofNat v.w (leNat ((List.range v.wb).map fun k => bufByte buf (v.wb * i.val + k)))

/-- R16, R65, R126, R200 (`to_le`): byte `j` of `le_bytes(S.h)`. -/
def leByte {v : Variant} (h : Vector (Word v) 8) (j : Nat) : Byte := byteOf (h[j / v.wb]?.getD 0) (j % v.wb)

/-! ### Words -/

/-- R15: `rotr_w(a, n) = ((a >> n) | (a << (w − n))) mod 2^w` for `1 ≤ n ≤ w − 1`, and `a` for `n = 0`. -/
def rotr {v : Variant} (a : Word v) (n : Nat) : Word v := if n = 0 then a else (a >>> n) ||| (a <<< (v.w - n))

/-! ### The context -/

/-- R26: the number of bytes held in the block buffer, a function of the counter. -/
def fill (v : Variant) (t : BitVec 64) : Nat := if t = 0 then 0 else (t.toNat - 1) % v.bb + 1

/-- R190, `ABORT_STATE`: drops the context; the way out of FAILED (R232). -/
def abortState (s : State) : State :=
  { s with
    phase := .none
    dp := { s.dp with h := Vector.replicate 8 0, buf := Vector.replicate s.variant.bb 0 }
    t := 0
    nn := 0
    dig := Vector.replicate 64 0
    eq := false
    cmpv := false
    err := .none }

/-- R230, `FAIL(code)`, the failure entry performed by `raise Error(code)`: the first error is kept, the phase is
FAILED, `S.h`, `S.buf`, `S.dig`, `S.nn`, `S.eq` and `S.cmpv` are cleared; `S.t` and the staging windows are kept. -/
def fail (code : ErrCode) (s : State) : State :=
  { s with
    err := if s.err = .none then code else s.err
    phase := .failed
    dp := { s.dp with h := Vector.replicate 8 0, buf := Vector.replicate s.variant.bb 0 }
    dig := Vector.replicate 64 0
    nn := 0
    eq := false
    cmpv := false }

/-- R221, R231: a command word that matches no row of R93 raises ILLEGAL; in FAILED it is refused and nothing
changes. -/
def illegalWord (s : State) : State :=
  match s.phase with
  | .failed => s
  | .none | .fresh | .absorbing | .finalized => fail .illegal s

/-- R250, R251: reset, whatever the block was doing; what the outside world has still to do stays, and the count of
drawn values goes on (log entry 11). -/
def applyReset (s : State) : State := { State.resetOf s.variant with bus := s.bus, draws := s.draws }

end Sys2Proof.Machine
end

