-- ==== Sys2Proof/Machine/Operands.lean ====
section
/-! DEFINITION. Operands: the vector registers (R28, R120), the bytes of the staging windows (R34), and the legal
ranges of the command operands (R92 of 30_encoding.md, checked when the command runs). -/

namespace Sys2Proof.Machine

/-- R120: `V[i]`. -/
def VFile.get {v : Variant} (V : VFile v) : VReg → Lanes v
  | .VA => V.VA
  | .VB => V.VB
  | .VC => V.VC
  | .VD => V.VD
  | .VX => V.VX
  | .VY => V.VY

/-- R120: `V[i] <- x`. -/
def VFile.set {v : Variant} (V : VFile v) (i : VReg) (x : Lanes v) : VFile v :=
  match i with
  | .VA => { V with VA := x }
  | .VB => { V with VB := x }
  | .VC => { V with VC := x }
  | .VD => { V with VD := x }
  | .VX => { V with VX := x }
  | .VY => { V with VY := x }

/-- R45: first offset of the KEY, DIN, REF and DIGEST windows. -/
def keyBase : Nat := 0x040
def dinBase : Nat := 0x080
def refBase : Nat := 0x100
def digestBase : Nat := 0x140

/-- R34: `S.key[i]`, `S.din[i]`, `S.ref[i]`. -/
def keyByte (s : State) (i : Nat) : Byte := Memory.read s.mem (keyBase + i)
def dinByte (s : State) (i : Nat) : Byte := Memory.read s.mem (dinBase + i)
def refByte (s : State) (i : Nat) : Byte := Memory.read s.mem (refBase + i)

/-- R175: the data of UPDATE, `S.din[0..len−1]`. -/
def dinBytes (s : State) (len : Nat) : List Byte := (List.range len).map (dinByte s)

/-- R171: the key, `kk` bytes of the KEY window, zero-padded to a block. -/
def keyBlock (s : State) (kk : Nat) : Vector Byte s.variant.bb :=
  Vector.ofFn fun i => if i.val < kk then keyByte s i.val else 0

/-- R92, R170: `1 ≤ NN ≤ NN_MAX` and `KK ≤ KK_MAX`. -/
def initOperandsOk (v : Variant) (nn kk : BitVec 7) : Bool :=
  decide (1 ≤ nn.toNat ∧ nn.toNat ≤ v.nnMax ∧ kk.toNat ≤ v.kkMax)

/-- R92, R175: `LEN ≤ 128`. -/
def updateOperandOk (len : BitVec 8) : Bool := decide (len.toNat ≤ 128)

/-- R102, R103: `AMT ≤ w − 1`. -/
def amountOk (v : Variant) (amt : BitVec 6) : Bool := decide (amt.toNat < v.w)

/-- R102, R103: `1 ≤ K ≤ 3`. -/
def shiftOk (k : BitVec 2) : Bool := k != 0

end Sys2Proof.Machine
end

