-- ==== Sys2Proof/Machine/Flags.lean ====
section
/-! DEFINITION. Flags: the block's only flags (R36 of 10_state.md): the finalization flag `f` (R148), `EQ` and
`CMPV` (R31, R205), `BUSY` and `ERR`, and the STATUS word that shows them (R42). -/

namespace Sys2Proof.Machine

/-- R148: the final-block flag multiplexer. -/
def finalFlag (v : Variant) (last : Bool) : Word v := if last then BitVec.allOnes v.w else 0

/-- R205: `acc`, the or of `S.dig[i] ⊕ S.ref[i]` over all `i < S.nn`, with no early exit (R206). -/
def compareAcc (s : State) : Byte :=
  (List.range s.nn.toNat).foldl (fun acc i => acc ||| (s.dig[i]?.getD 0 ^^^ refByte s i)) 0

/-- R205: the new `S.eq`: the lengths agree and no byte differs. -/
def compareEq (s : State) (len : BitVec 8) : Bool := len.toNat == s.nn.toNat && compareAcc s == 0

/-- R21: the encoding of the phase in STATUS. -/
def Phase.code : Phase → BitVec 3
  | .none => 0
  | .fresh => 1
  | .absorbing => 2
  | .finalized => 3
  | .failed => 4

/-- R220: the encoding of the error code in STATUS. -/
def ErrCode.code : ErrCode → BitVec 4
  | .none => 0
  | .illegal => 1
  | .param => 2
  | .seq => 3
  | .overflow => 4
  | .busy => 5

/-- R42: `FILL`, the fill of the block buffer in FRESH and ABSORBING, 0 in the other phases. -/
def statusFill (s : State) : BitVec 8 :=
  match s.phase with
  | .fresh | .absorbing => BitVec.ofNat 8 (fill s.variant s.t)
  | .none | .finalized | .failed => 0

/-- R42: STATUS, from bit 31 down: zeros, FILL [23:16], zeros, ERR [11:8], zeros, CMPV [5], EQ [4], BUSY [3],
PHASE [2:0]. -/
def statusWord (s : State) : BitVec 32 :=
  0#8 ++ statusFill s ++ 0#4 ++ s.err.code ++ 0#2 ++ BitVec.ofBool s.cmpv ++ BitVec.ofBool s.eq ++
    BitVec.ofBool s.busy ++ s.phase.code

end Sys2Proof.Machine
end

