-- ==== Sys2Proof/Machine/VectorAlu.lean ====
section
/-! DEFINITION. VectorAlu: the word/vector ALU (40_vector_alu.md), first as operations on the register file, then as
the meanings of the five micro-ops. Every source is read before the destination is written (R127). -/

namespace Sys2Proof.Machine

/-- R121: `r.j = (V[SRC1].j + V[SRC2].j) mod 2^w`. -/
def aluVadd {v : Variant} (dst src1 src2 : VReg) (V : VFile v) : VFile v :=
  V.set dst (Lanes.ofFn fun j => (V.get src1).get j + (V.get src2).get j)

/-- R122: `r.j = V[SRC1].j ⊕ V[SRC2].j`. -/
def aluVxor {v : Variant} (dst src1 src2 : VReg) (V : VFile v) : VFile v :=
  V.set dst (Lanes.ofFn fun j => (V.get src1).get j ^^^ (V.get src2).get j)

/-- R123: `r.j = rotr_w(V[SRC1].j, AMT)`. -/
def aluVrotr {v : Variant} (dst src1 : VReg) (amt : BitVec 6) (V : VFile v) : VFile v :=
  V.set dst (Lanes.ofFn fun j => rotr ((V.get src1).get j) amt.toNat)

/-- R124: `r.j = V[SRC1].((j + K) mod 4)`. -/
def aluVshl {v : Variant} (dst src1 : VReg) (k : BitVec 2) (V : VFile v) : VFile v :=
  V.set dst (Lanes.ofFn fun j => (V.get src1).get (j + k.toFin))

/-- R125: `r.j = V[SRC1].((j − K) mod 4)`. -/
def aluVshr {v : Variant} (dst src1 : VReg) (k : BitVec 2) (V : VFile v) : VFile v :=
  V.set dst (Lanes.ofFn fun j => (V.get src1).get (j - k.toFin))

/-- The ALU's operation for a micro-op. A host command is no micro-op and leaves the file as it is; the microprogram
ROM holds none. -/
def aluRun {v : Variant} (i : Instr) (V : VFile v) : VFile v :=
  match i with
  | .vadd d a b => aluVadd d a b V
  | .vxor d a b => aluVxor d a b V
  | .vrotr d a amt => aluVrotr d a amt V
  | .vshl d a k => aluVshl d a k V
  | .vshr d a k => aluVshr d a k V
  | .init _ _ => V
  | .update _ => V
  | .final => V
  | .compare _ => V
  | .abort => V

/-- Writes the vector register file, and nothing else. -/
def setVregs (s : State) (V : VFile s.variant) : State := { s with dp := { s.dp with vregs := V } }

/-- VADD (R121). -/
def execVadd (dst src1 src2 : VReg) (s : State) : Outcome := .next (setVregs s (aluVadd dst src1 src2 s.dp.vregs))

/-- VXOR (R122). -/
def execVxor (dst src1 src2 : VReg) (s : State) : Outcome := .next (setVregs s (aluVxor dst src1 src2 s.dp.vregs))

/-- VROTR (R123); `AMT ≥ w` is a reserved encoding and refused (R103). -/
def execVrotr (dst src1 : VReg) (amt : BitVec 6) (s : State) : Outcome :=
  if amountOk s.variant amt then .next (setVregs s (aluVrotr dst src1 amt s.dp.vregs))
  else .refused (.reservedMicroOp .amountTooLarge)

/-- VSHL (R124); `K = 0` is a reserved encoding and refused (R103). -/
def execVshl (dst src1 : VReg) (k : BitVec 2) (s : State) : Outcome :=
  if shiftOk k then .next (setVregs s (aluVshl dst src1 k s.dp.vregs)) else .refused (.reservedMicroOp .zeroShift)

/-- VSHR (R125); `K = 0` is a reserved encoding and refused (R103). -/
def execVshr (dst src1 : VReg) (k : BitVec 2) (s : State) : Outcome :=
  if shiftOk k then .next (setVregs s (aluVshr dst src1 k s.dp.vregs)) else .refused (.reservedMicroOp .zeroShift)

end Sys2Proof.Machine
end

