-- ==== Sys2Proof/Machine/Compression.lean ====
section
/-! DEFINITION. Compression: the compression function (41_compression.md), as the pure function COMPRESS of R156, and
as the datapath computes it: the sequencer running the microprogram over the vector registers (R150 to R155, R160). -/

namespace Sys2Proof.Machine

/-! ### COMPRESS as a function (R140, R145 to R149, R152, R154 to R156) -/

/-- The four words G returns. -/
structure GWords (v : Variant) where
  a : Word v
  b : Word v
  c : Word v
  d : Word v
  deriving DecidableEq, Repr

/-- R152: the mixing primitive in scalar form. -/
def mixG {v : Variant} (a b c d x y : Word v) : GWords v :=
  let a := a + b + x
  let d := rotr (d ^^^ a) (rc1 v)
  let c := c + d
  let b := rotr (b ^^^ c) (rc2 v)
  let a := a + b + y
  let d := rotr (d ^^^ a) (rc3 v)
  let c := c + d
  let b := rotr (b ^^^ c) (rc4 v)
  { a := a, b := b, c := c, d := d }

/-- R154: one call, `(v[a], v[b], v[c], v[d]) <- G(v[a], v[b], v[c], v[d], x, y)`. -/
def mixAt {v : Variant} (a b c d : Fin 16) (x y : Word v) (V : Vector (Word v) 16) : Vector (Word v) 16 :=
  let g := mixG V[a] V[b] V[c] V[d] x y
  (((V.set a g.a).set b g.b).set c g.c).set d g.d

/-- R154: the 8 calls of one round with SIGMA row `s`, in order. -/
def round {v : Variant} (m : Fin 16 → Word v) (s : Fin 16 → Fin 16) (V : Vector (Word v) 16) : Vector (Word v) 16 :=
  let V := mixAt 0 4 8 12 (m (s 0)) (m (s 1)) V
  let V := mixAt 1 5 9 13 (m (s 2)) (m (s 3)) V
  let V := mixAt 2 6 10 14 (m (s 4)) (m (s 5)) V
  let V := mixAt 3 7 11 15 (m (s 6)) (m (s 7)) V
  let V := mixAt 0 5 10 15 (m (s 8)) (m (s 9)) V
  let V := mixAt 1 6 11 12 (m (s 10)) (m (s 11)) V
  let V := mixAt 2 7 8 13 (m (s 12)) (m (s 13)) V
  mixAt 3 4 9 14 (m (s 14)) (m (s 15)) V

/-- R145: rounds `0 .. n − 1`, in order; round `r` uses row `SIGMA[r mod 10]`. -/
def rounds {v : Variant} (m : Fin 16 → Word v) : Nat → Vector (Word v) 16 → Vector (Word v) 16
  | 0, V => V
  | n + 1, V => round m (sigma n) (rounds m n V)

/-- R147: `t_lo = t mod 2^w`. -/
def counterLo (v : Variant) (t : BitVec 64) : Word v := BitVec.ofNat v.w t.toNat

/-- R147: `t_hi = t >> w`. -/
def counterHi (v : Variant) (t : BitVec 64) : Word v := BitVec.ofNat v.w (t.toNat >>> v.w)

/-- R147 to R149: the full working vector. -/
def workingVector {v : Variant} (h : Vector (Word v) 8) (t : BitVec 64) (last : Bool) : Vector (Word v) 16 :=
  #v[h[0], h[1], h[2], h[3], h[4], h[5], h[6], h[7],
     (iv v)[0], (iv v)[1], (iv v)[2], (iv v)[3],
     (iv v)[4] ^^^ counterLo v t, (iv v)[5] ^^^ counterHi v t, (iv v)[6] ^^^ finalFlag v last, (iv v)[7]]

/-- R155: `h'[i] = h[i] ⊕ v[i] ⊕ v[i + 8]`. -/
def foldOutput {v : Variant} (h : Vector (Word v) 8) (V : Vector (Word v) 16) : Vector (Word v) 8 :=
  Vector.ofFn fun i => h[i] ^^^ V[i.val] ^^^ V[i.val + 8]

/-- R140, R156: `COMPRESS(h, m, t, last)`. -/
def compress {v : Variant} (h : Vector (Word v) 8) (m : Fin 16 → Word v) (t : BitVec 64) (last : Bool) :
    Vector (Word v) 8 :=
  foldOutput h (rounds m v.rounds (workingVector h t last))

/-- R146: the initial chaining value, `h[0] = IV[0] ⊕ 0x01010000 ⊕ (kk << 8) ⊕ nn`. -/
def initialH (v : Variant) (nn kk : BitVec 7) : Vector (Word v) 8 :=
  (iv v).set 0 ((iv v)[0] ^^^ BitVec.ofNat v.w 0x01010000 ^^^ (kk.setWidth v.w <<< 8) ^^^ nn.setWidth v.w)

/-! ### The datapath: sequencer, microprogram and vector registers -/

/-- R150: the working vector is loaded into the vector registers row by row. -/
def loadRows {v : Variant} (V : Vector (Word v) 16) (R : VFile v) : VFile v :=
  { R with
    VA := { x0 := V[0], x1 := V[1], x2 := V[2], x3 := V[3] }
    VB := { x0 := V[4], x1 := V[5], x2 := V[6], x3 := V[7] }
    VC := { x0 := V[8], x1 := V[9], x2 := V[10], x3 := V[11] }
    VD := { x0 := V[12], x1 := V[13], x2 := V[14], x3 := V[15] } }

/-- R28: the working vector as the rows `VA` to `VD` hold it. -/
def rowsOf {v : Variant} (R : VFile v) : Vector (Word v) 16 :=
  #v[R.VA.x0, R.VA.x1, R.VA.x2, R.VA.x3, R.VB.x0, R.VB.x1, R.VB.x2, R.VB.x3,
     R.VC.x0, R.VC.x1, R.VC.x2, R.VC.x3, R.VD.x0, R.VD.x1, R.VD.x2, R.VD.x3]

/-- R153: the message gather from SIGMA entries `base .. base + 7`: the even ones into VX, the odd ones into VY. -/
def gather {v : Variant} (m : Fin 16 → Word v) (s : Fin 16 → Fin 16) (base : Fin 16) (R : VFile v) : VFile v :=
  { R with
    VX := { x0 := m (s base), x1 := m (s (base + 2)), x2 := m (s (base + 4)), x3 := m (s (base + 6)) }
    VY := { x0 := m (s (base + 1)), x1 := m (s (base + 3)), x2 := m (s (base + 5)), x3 := m (s (base + 7)) } }

/-- The ALU runs the micro-op word at its input. A reserved word would leave the registers as they are; the
microprogram ROM holds none (R103). -/
def aluIssue {v : Variant} (d : Datapath v) : Datapath v :=
  match d.seq.issue with
  | none => d
  | some u =>
    match decodeUop v u with
    | .ok i => { d with vregs := aluRun i d.vregs, seq := { d.seq with issue := none } }
    | .error _ => { d with seq := { d.seq with issue := none } }

/-- R153: one step of the round's list. -/
def runItem {v : Variant} (item : SeqItem) (d : Datapath v) : Datapath v :=
  match item with
  | .gatherColumn => { d with vregs := gather (leWord d.buf) (sigma d.seq.r.toNat) 0 d.vregs }
  | .gatherDiagonal => { d with vregs := gather (leWord d.buf) (sigma d.seq.r.toNat) 8 d.vregs }
  | .uop u => aluIssue { d with seq := { d.seq with issue := some u } }

/-- R160: the next position; after the last one, position 0 of the next round. -/
def advance (q : Seq) : Seq :=
  if q.pos.toNat + 1 = roundLength then { q with pos := 0, r := q.r + 1 } else { q with pos := q.pos + 1 }

/-- R160: the sequencer performs the step at its position and moves on. -/
def seqStep {v : Variant} (d : Datapath v) : Datapath v :=
  match (roundProgram v)[d.seq.pos.toNat]? with
  | some item =>
    let d := runItem item d
    { d with seq := advance d.seq }
  | none => d

def seqRun {v : Variant} : Nat → Datapath v → Datapath v
  | 0, d => d
  | n + 1, d => seqRun n (seqStep d)

/-- R150, R160: the load that starts a compression. -/
def seqLoad {v : Variant} (t : BitVec 64) (last : Bool) (d : Datapath v) : Datapath v :=
  { d with
    vregs := loadRows (workingVector d.h t last) d.vregs
    seq := { busy := true, r := 0, pos := 0, issue := none } }

/-- R155, R160: forms `h'` from the rows, writes `S.h`, and returns the sequencer to idle. -/
def seqOutput {v : Variant} (d : Datapath v) : Datapath v :=
  { d with h := foldOutput d.h (rowsOf d.vregs), seq := Seq.idle }

/-- R160: one whole compression of the block buffer, as the datapath does it: load, ROUNDS rounds of the round's
program, output. Only the vector registers and `S.h` are written (R161). -/
def compressDatapath {v : Variant} (t : BitVec 64) (last : Bool) (d : Datapath v) : Datapath v :=
  seqOutput (seqRun (roundLength * v.rounds) (seqLoad t last d))

end Sys2Proof.Machine
end

