-- ==== Sys2Proof/Machine/Streaming.lean ====
section
/-! DEFINITION. Streaming: the meanings of INIT, UPDATE, FINAL and ABORT and the absorb primitive
(42_streaming.md). In FAILED, UPDATE and FINAL change nothing (R231). -/

namespace Sys2Proof.Machine

/-- One compression of the block buffer with the counter as it stands; only `S.h` and the vector registers change
(R161). -/
def compressState (last : Bool) (s : State) : State := { s with dp := compressDatapath s.t last s.dp }

/-- Empties the block buffer. -/
def clearBuf (s : State) : State := { s with dp := { s.dp with buf := Vector.replicate s.variant.bb 0 } }

/-! ### INIT -/

/-- R170, R171: the new context that a legal INIT sets up on a dropped one. -/
def newContext (nn kk : BitVec 7) (s : State) : State :=
  { s with
    dp := { s.dp with h := initialH s.variant nn kk, buf := keyBlock s kk.toNat }
    nn := nn
    t := if kk = 0 then 0 else BitVec.ofNat 64 s.variant.bb
    phase := .fresh }

/-- INIT (R170): legal in every phase. -/
def execInit (nn kk : BitVec 7) (s : State) : Outcome :=
  let dropped := abortState s
  if initOperandsOk s.variant nn kk then .next (newContext nn kk dropped) else .next (fail .param dropped)

/-! ### UPDATE -/

/-- R176: a full block that more input follows is compressed, with `last` false, and the buffer emptied. -/
def flushFull (s : State) : State :=
  if fill s.variant s.t = s.variant.bb then clearBuf (compressState false s) else s

/-- R176: `S.buf[S.t mod BB] <- b`, one more byte counted, phase ABSORBING. -/
def storeByte (b : Byte) (s : State) : State :=
  { s with
    dp := { s.dp with buf := s.dp.buf.set (s.t.toNat % s.variant.bb) b (Nat.mod_lt _ s.variant.bb_pos) }
    t := s.t + 1
    phase := .absorbing }

/-- R175, R176, R178: ABSORB over a string of bytes; at `S.t = 2^64 − 1` the next byte raises OVERFLOW, and neither
it nor any later one is absorbed. -/
def absorbBytes : List Byte → State → State
  | [], s => s
  | b :: bs, s => if s.t = BitVec.allOnes 64 then fail .overflow s else absorbBytes bs (storeByte b (flushFull s))

/-- UPDATE (R175): first the phase, then the operand, then the bytes (R226). -/
def execUpdate (len : BitVec 8) (s : State) : Outcome :=
  match s.phase with
  | .failed => .next s
  | .none | .finalized => .next (fail .seq s)
  | .fresh | .absorbing =>
    if updateOperandOk len then .next (absorbBytes (dinBytes s len.toNat) s) else .next (fail .param s)

/-! ### FINAL -/

/-- R186: zero padding from position `fill(S.t)` on. -/
def padBuf (s : State) : State :=
  { s with
    dp := { s.dp with buf := Vector.ofFn fun i => if i.val < fill s.variant s.t then bufByte s.dp.buf i.val else 0 } }

/-- R200: the first `nn` bytes of the chaining value, little-endian, and zeros up to 64. -/
def digestOf {v : Variant} (nn : BitVec 7) (h : Vector (Word v) 8) : Vector Byte 64 :=
  Vector.ofFn fun j => if j.val < nn.toNat then leByte h j.val else 0

/-- R185: what FINAL does in FRESH and ABSORBING. -/
def finalize (s : State) : State :=
  let s := compressState true (padBuf s)
  { s with dig := digestOf s.nn s.dp.h, eq := false, cmpv := false, phase := .finalized }

/-- FINAL (R185). -/
def execFinal (s : State) : Outcome :=
  match s.phase with
  | .failed => .next s
  | .none | .finalized => .next (fail .seq s)
  | .fresh | .absorbing => .next (finalize s)

/-! ### ABORT -/

/-- ABORT (R190): legal in every phase. -/
def execAbort (s : State) : Outcome := .next (abortState s)

end Sys2Proof.Machine
end

