-- ==== Sys2Proof/Machine/Compare.lean ====
section
/-! DEFINITION. Compare: the meaning of COMPARE, the constant-time comparator (43_result_compare.md). Its timing
(R206) is not modelled; the scan itself has no early exit (compareAcc in Flags). -/

namespace Sys2Proof.Machine

/-- COMPARE (R205): SEQ in every phase but FINALIZED; in FAILED nothing changes (R231). -/
def execCompare (len : BitVec 8) (s : State) : Outcome :=
  match s.phase with
  | .failed => .next s
  | .none | .fresh | .absorbing => .next (fail .seq s)
  | .finalized => .next { s with eq := compareEq s len, cmpv := true }

end Sys2Proof.Machine
end

