-- ==== Sys2Proof/Machine/HostBus.lean ====
section
/-! DEFINITION. HostBus: the host's accesses to the register window (section 6 of 10_state.md, 20_memory.md) and the
start of a command (R255, R258, R259 of 70_reset_and_hazards.md). -/

namespace Sys2Proof.Machine

/-- R74: what stands at a word-aligned window offset. `word` is the offset of the word itself, for the windows. -/
inductive HostReg
  | id
  | cmd
  | status
  | dlen
  | countLo
  | countHi
  | key (word : Nat)
  | din (word : Nat)
  | ref (word : Nat)
  | digest (word : Nat)
  | reserved
  deriving DecidableEq, Repr

/-- R74: the complete address map. -/
def hostReg (off : BitVec 12) : HostReg :=
  if off.toNat = 0x000 then .id
  else if off.toNat = 0x004 then .cmd
  else if off.toNat = 0x008 then .status
  else if off.toNat = 0x00C then .dlen
  else if off.toNat = 0x010 then .countLo
  else if off.toNat = 0x014 then .countHi
  else if off.toNat < keyBase then .reserved
  else if off.toNat < dinBase then .key off.toNat
  else if off.toNat < refBase then .din off.toNat
  else if off.toNat < digestBase then .ref off.toNat
  else if off.toNat < 0x180 then .digest off.toNat
  else .reserved

/-- R40: the ID constant: VERSION, WBITS, ROUNDS, VAR. -/
def idWord (v : Variant) : BitVec 32 :=
  let varChar : BitVec 8 := match v with | .B => 0x62 | .S => 0x73
  0x01#8 ++ BitVec.ofNat 8 v.w ++ BitVec.ofNat 8 v.rounds ++ varChar

/-- R43, R203: DLEN, `S.nn` in FRESH, ABSORBING and FINALIZED and 0 otherwise. -/
def dlenWord (s : State) : BitVec 32 :=
  match s.phase with
  | .fresh | .absorbing | .finalized => s.nn.setWidth 32
  | .none | .failed => 0

/-- R201: the DIGEST window's mask. -/
def digestByte (s : State) (k : Nat) : Byte :=
  match s.phase with
  | .finalized => if k < s.nn.toNat then s.dig[k]?.getD 0 else 0
  | .none | .fresh | .absorbing | .failed => 0

/-- R64, R201: the DIGEST word at byte `k` of the window. -/
def digestWord (s : State) (k : Nat) : BitVec 32 :=
  BitVec.ofNat 32 (leNat [digestByte s k, digestByte s (k + 1), digestByte s (k + 2), digestByte s (k + 3)])

/-- What a host read returns with `S.busy = 0` (R40 to R46, R68, R73). -/
def readReg (s : State) : HostReg → BitVec 32
  | .id => idWord s.variant
  | .cmd => 0
  | .status => statusWord s
  | .dlen => dlenWord s
  | .countLo => s.t.setWidth 32
  | .countHi => (s.t >>> 32).setWidth 32
  | .key _ => 0
  | .din a => Memory.loadWord s.mem a
  | .ref a => Memory.loadWord s.mem a
  | .digest a => digestWord s (a - digestBase)
  | .reserved => 0

/-- R259: the registers whose value is unspecified while busy. -/
def HostReg.unspecifiedWhileBusy : HostReg → Bool
  | .status | .dlen | .countLo | .countHi | .digest _ => true
  | .id | .cmd | .key _ | .din _ | .ref _ | .reserved => false

/-- R42, R259: bit 3 of STATUS, which reads 1 while busy. -/
def busyBit : BitVec 32 := 0x8

/-- R259: an unspecified value is drawn freely on each read; of STATUS only `BUSY = 1` is defined. -/
def drawnWord (s : State) : HostReg → BitVec 32
  | .status => Config.freeRead s.draws ||| busyBit
  | .id | .cmd | .dlen | .countLo | .countHi | .key _ | .din _ | .ref _ | .digest _ | .reserved =>
    Config.freeRead s.draws

/-- A 32-bit aligned read: no side effect on the block (R69, R259). -/
def hostRead (off : BitVec 12) (s : State) : State :=
  if s.busy && (hostReg off).unspecifiedWhileBusy then
    { s with resp := .data (drawnWord s (hostReg off)), draws := s.draws + 1 }
  else { s with resp := .data (readReg s (hostReg off)) }

/-- R255: a command starts. -/
def startCommand (cw : BitVec 32) (s : State) : State := { s with pending := cw, viol := false, busy := true }

/-- A 32-bit aligned write: while busy it is dropped and recorded (R258); otherwise CMD starts a command (R255), the
staging windows store (R72), and anything else ignores it (R46, R68). -/
def hostWrite (off : BitVec 12) (val : BitVec 32) (s : State) : State :=
  if s.busy then { s with viol := true, resp := .ack }
  else
    match hostReg off with
    | .cmd => { startCommand val s with resp := .ack }
    | .key a | .din a | .ref a => { s with mem := Memory.storeWord s.mem a val, resp := .ack }
    | .id | .status | .dlen | .countLo | .countHi | .digest _ | .reserved => { s with resp := .ack }

/-- R63, R246: the bus error response; no state of the block changes. -/
def busError (s : State) : State := { s with resp := .error }

/-- R62, R63: the only accesses served are 32-bit ones at an offset that is a multiple of 4. -/
def servedAccess (off : BitVec 12) (width : AccessWidth) : Bool :=
  decide (width = .bits32) && decide (off.toNat % 4 = 0)

/-- One read on the bus. -/
def busRead (off : BitVec 12) (width : AccessWidth) (s : State) : State :=
  if servedAccess off width then hostRead off s else busError s

/-- One write on the bus. -/
def busWrite (off : BitVec 12) (width : AccessWidth) (val : BitVec 32) (s : State) : State :=
  if servedAccess off width then hostWrite off val s else busError s

/-- R60: the window offset of a host bus address, if the address lies in the window. -/
def windowOffset (addr : Nat) : Option (BitVec 12) :=
  if Config.b2coreBase ≤ addr ∧ addr < Config.b2coreBase + 0x1000 then
    some (BitVec.ofNat 12 (addr - Config.b2coreBase))
  else none

end Sys2Proof.Machine
end

