-- ==== Sys2Proof/Machine/HostProgram.lean ====
section
/-! DEFINITION. HostProgram: the host's assembler lines and pseudo-instructions (R106, R107 of 30_encoding.md), as
the lists of bus events they stand for. A command line is its CMD write and the engine's turn that its implied WAIT
waits for. -/

namespace Sys2Proof.Machine

/-- `wr OFF, VAL`. -/
def wrLine (off : BitVec 12) (val : BitVec 32) : List BusEvent := [.write off .bits32 val]

/-- `rd OFF`. -/
def rdLine (off : BitVec 12) : List BusEvent := [.read off .bits32]

/-- R107: `WAIT` up to the poll that finds `BUSY = 0`: the engine completes, then STATUS is read. -/
def waitLines : List BusEvent := [.engine, .read 0x008 .bits32]

/-- A command line: the CMD write, then the implied WAIT. -/
def commandLine (cw : BitVec 32) : List BusEvent := wrLine 0x004 cw ++ waitLines

/-- `INIT nn, kk`, `UPDATE len`, `FINAL`, `COMPARE len`, `ABORT`. -/
def initLine (nn kk : Nat) : List BusEvent :=
  commandLine (0x10000000#32 ||| (BitVec.ofNat 32 kk <<< 8) ||| BitVec.ofNat 32 nn)
def updateLine (len : Nat) : List BusEvent := commandLine (0x20000000#32 ||| BitVec.ofNat 32 len)
def finalLine : List BusEvent := commandLine 0x30000000#32
def compareLine (len : Nat) : List BusEvent := commandLine (0x40000000#32 ||| BitVec.ofNat 32 len)
def abortLine : List BusEvent := commandLine 0x50000000#32

/-- R107: the word `j` of a byte string, `b(4j) | b(4j+1)<<8 | b(4j+2)<<16 | b(4j+3)<<24`, missing bytes 0. -/
def lineWord (bytes : List Byte) (j : Nat) : BitVec 32 :=
  bytes.getD (4 * j + 3) 0 ++ bytes.getD (4 * j + 2) 0 ++ bytes.getD (4 * j + 1) 0 ++ bytes.getD (4 * j) 0

/-- The words that cover a byte string, written from a window's base on. -/
def loadLines (base : Nat) (bytes : List Byte) : List BusEvent :=
  (List.range ((bytes.length + 3) / 4)).flatMap fun j => wrLine (BitVec.ofNat 12 (base + 4 * j)) (lineWord bytes j)

/-- `LOADKEY`, `LOADDIN`, `LOADREF`. -/
def loadKeyLines (bytes : List Byte) : List BusEvent := loadLines keyBase bytes
def loadDinLines (bytes : List Byte) : List BusEvent := loadLines dinBase bytes
def loadRefLines (bytes : List Byte) : List BusEvent := loadLines refBase bytes

/-- `READDIG n`. -/
def readDigLines (n : Nat) : List BusEvent :=
  (List.range ((n + 3) / 4)).flatMap fun j => rdLine (BitVec.ofNat 12 (digestBase + 4 * j))

/-- `ABSORB` of one chunk of at most 128 bytes: `LOADDIN c; UPDATE |c|; WAIT`. -/
def absorbChunk (chunk : List Byte) : List BusEvent := loadDinLines chunk ++ updateLine chunk.length

/-- `ABSORB data`: the data in chunks of at most 128 bytes; `n` chunks are enough when `data.length ≤ 128 * n`. -/
def absorbLines : Nat → List Byte → List BusEvent
  | 0, _ => []
  | n + 1, data =>
    if data.isEmpty then [] else absorbChunk (data.take 128) ++ absorbLines n (data.drop 128)

/-- `DIGEST nn, key, msg`. -/
def digestLines (nn : Nat) (key msg : List Byte) : List BusEvent :=
  loadKeyLines key ++ initLine nn key.length ++ absorbLines ((msg.length + 127) / 128) msg ++ finalLine ++
    readDigLines nn

end Sys2Proof.Machine
end

