-- ==== Sys2Proof/Machine/Dispatch.lean ====
section
/-! DEFINITION. Dispatch: one arm per instruction, each a direct call of its meaning. -/

namespace Sys2Proof.Machine

def exec (i : Instr) (s : State) : Host.Outcome State Fault Refusal :=
  match i with
  -- host commands
  | .init nn kk => Sys2Proof.Machine.execInit nn kk s
  | .update len => Sys2Proof.Machine.execUpdate len s
  | .final => Sys2Proof.Machine.execFinal s
  | .compare len => Sys2Proof.Machine.execCompare len s
  | .abort => Sys2Proof.Machine.execAbort s
  -- ALU micro-ops
  | .vadd dst src1 src2 => Sys2Proof.Machine.execVadd dst src1 src2 s
  | .vxor dst src1 src2 => Sys2Proof.Machine.execVxor dst src1 src2 s
  | .vrotr dst src1 amt => Sys2Proof.Machine.execVrotr dst src1 amt s
  | .vshl dst src1 k => Sys2Proof.Machine.execVshl dst src1 k s
  | .vshr dst src1 k => Sys2Proof.Machine.execVshr dst src1 k s

end Sys2Proof.Machine
end

