-- ==== Sys2Proof/Machine/Engine.lean ====
section
/-! DEFINITION. Engine: what a step does around `exec`: completing the pending command (R256 of
70_reset_and_hazards.md), running the micro-op at the ALU's input, and taking one event of the bus. -/

namespace Sys2Proof.Machine

/-- The end of a step: the new state if there is one, and what `f` makes of it. -/
def mapNext (f : State → State) : Outcome → Outcome
  | .next s => .next (f s)
  | .fault r => .fault r
  | .refused r => .refused r

/-- R225, R256: after the command's own effect, a recorded violation raises BUSY; then the handshake ends. -/
def endCommand (s : State) : State :=
  let s := if s.viol then fail .busy s else s
  { s with viol := false, busy := false }

/-- R256: `EXECUTE(S.pending)`: decode, then the command's rule, or the illegal word's. -/
def executePending (s : State) : Outcome :=
  match decodeCmd s.pending with
  | .ok i => exec i s
  | .error _ => .next (illegalWord s)

/-- R256: `COMPLETE()`. -/
def complete (s : State) : Outcome := mapNext endCommand (executePending s)

/-- The engine's turn: it completes the pending command if there is one. -/
def engineTurn (s : State) : Outcome := if s.busy then complete s else .next s

/-- The micro-op word has left the ALU's input. -/
def clearIssue (s : State) : State := { s with dp := { s.dp with seq := { s.dp.seq with issue := none } } }

/-- The ALU runs the micro-op word `u`; a reserved word is refused (R103, R104, R129). -/
def issueUop (u : BitVec 16) (s : State) : Outcome :=
  match decodeUop s.variant u with
  | .ok i => mapNext clearIssue (exec i s)
  | .error why => .refused (.reservedMicroOp why)

/-- One event of the bus (R76: one at a time, in the order they come). -/
def takeEvent (e : BusEvent) (s : State) : Outcome :=
  match e with
  | .read off width => .next (busRead off width s)
  | .write off width val => .next (busWrite off width val s)
  | .engine => engineTurn s
  | .reset => .next (applyReset s)

/-- The next event leaves the list of events to come. -/
def popEvent (s : State) : State := { s with bus := s.bus.tail }

/-- The next thing to happen: an event of the bus, or, when none is left, the engine's turn (R260: every started
command completes). -/
def nextEvent (s : State) : Outcome :=
  match s.bus with
  | [] => engineTurn s
  | e :: _ => takeEvent e (popEvent s)

/-- Puts a code word where the next step runs it: a micro-op at the ALU's input; a command pending, busy, with the
engine's turn next. -/
def placeWord (s : State) : CodeWord → State
  | .uop16 u => { s with dp := { s.dp with seq := { s.dp.seq with issue := some u } } }
  | .cmd32 cw =>
    { s with
      dp := { s.dp with seq := { s.dp.seq with issue := none } }
      pending := cw
      viol := false
      busy := true
      bus := .engine :: s.bus }

end Sys2Proof.Machine
end

