-- ==== Sys2Proof/Machine/Step.lean ====
section
/-! DEFINITION. Step: one step of the block, and the placing of a code word for the next step. -/

namespace Sys2Proof.Machine

/-- One step: a micro-op at the ALU's input runs; otherwise the next event of the bus happens, and when no event is
left the engine takes its turn. -/
def step (s : State) : Host.Outcome State Fault Refusal :=
  match s.dp.seq.issue with
  | some u => issueUop u s
  | none => nextEvent s

/-- The state whose next step runs the opcode-table word `w` of `nbits` bits (log entry 7). -/
def State.withFetchWord (s : State) (nbits w : Nat) : State :=
  match CodeWord.ofTable nbits w with
  | some c => placeWord s c
  | none => s

end Sys2Proof.Machine
end

