-- ==== Sys2Proof/Safety.lean ====
section
/-! DEFINITION. Safety: what counts as a safe run, and the invariant of the block's state that the rules of
10_state.md give. -/

namespace Sys2Proof.Machine

/-- A context exists (R25): FRESH, ABSORBING or FINALIZED. -/
def Phase.live : Phase → Bool
  | .fresh | .absorbing | .finalized => true
  | .none | .failed => false

/-- FRESH or ABSORBING (R223): the phases in which UPDATE and FINAL are valid. -/
def Phase.accepting : Phase → Bool
  | .fresh | .absorbing => true
  | .none | .finalized | .failed => false

/-- What every reachable state satisfies. -/
structure State.Inv (s : State) : Prop where
  /-- The memory is in its canonical form. -/
  memWf : Memory.wf s.mem
  /-- Only the KEY, DIN and REF windows hold bytes (R34, R74). -/
  memWindow : ∀ c ∈ s.mem, keyBase ≤ c.1 ∧ c.1 < digestBase
  /-- R32: `S.err` is non-zero exactly when the phase is FAILED. -/
  errPhase : s.err ≠ .none ↔ s.phase = .failed
  /-- R25: `1 ≤ S.nn ≤ NN_MAX` while a context exists. -/
  nnLive : s.phase.live = true → 1 ≤ s.nn.toNat ∧ s.nn.toNat ≤ s.variant.nnMax
  /-- R25: `S.nn = 0` in NONE and FAILED. -/
  nnDead : s.phase.live = false → s.nn = 0
  /-- R30, R200: the digest register is zero from `S.nn` on. -/
  digTail : ∀ k : Fin 64, s.nn.toNat ≤ k.val → s.dig[k] = 0
  /-- R30: the digest register is cleared outside FINALIZED. -/
  digPhase : s.phase ≠ .finalized → s.dig = Vector.replicate 64 0
  /-- R208: `EQ` is set only with `CMPV`. -/
  eqCmpv : s.eq = true → s.cmpv = true
  /-- R31: `CMPV` is set only in FINALIZED. -/
  cmpvPhase : s.cmpv = true → s.phase = .finalized
  /-- R190, R230: without a live context the chaining value and the buffer are erased. -/
  erased : s.phase.live = false → s.dp.h = Vector.replicate 8 0 ∧ s.dp.buf = Vector.replicate s.variant.bb 0
  /-- R190: the counter is 0 in NONE. -/
  noneCounter : s.phase = .none → s.t = 0
  /-- R26, R171: in FRESH the counter is 0, or one block for the key. -/
  freshCounter : s.phase = .fresh → s.t = 0 ∨ s.t = BitVec.ofNat 64 s.variant.bb
  /-- R21: in ABSORBING a byte has been absorbed. -/
  absorbingCounter : s.phase = .absorbing → s.t ≠ 0
  /-- R23, R26: the buffer is zero from the fill on while bytes are taken. -/
  bufTail : s.phase.accepting = true → ∀ j : Fin s.variant.bb, fill s.variant s.t ≤ j.val → s.dp.buf[j] = 0
  /-- R160: the sequencer is idle between compressions. -/
  seqIdle : s.dp.seq.busy = false ∧ s.dp.seq.r = 0 ∧ s.dp.seq.pos = 0
  /-- R255, R258: a violation is recorded only while a command runs. -/
  violBusy : s.viol = true → s.busy = true

/-- The step goes on. -/
def StepGoesOn (s : State) : Prop := ∃ s', step s = .next s'

/-- No micro-op stands at the ALU's input: the block is driven by its bus and its engine alone. -/
def NoIssue (s : State) : Prop := s.dp.seq.issue = none

/-- `n` steps that all go on. -/
def RunsSafely : Nat → State → Prop
  | 0, _ => True
  | n + 1, s => ∃ s', step s = .next s' ∧ RunsSafely n s'

end Sys2Proof.Machine
end

