-- ==== Sys2Proof/Machine/Reference.lean ====
section
/-! DEFINITION. Reference: the algorithm the rules describe, apart from the machine: ABSORB over the context alone
(R176), and the keyed hash of a whole message with one compression a block (R180, R195). Statements compare the
machine with these; the machine does not use them. -/

namespace Sys2Proof.Machine

/-- The three fields ABSORB works on. -/
structure AbsorbCtx (v : Variant) where
  h : Vector (Word v) 8
  buf : Vector Byte v.bb
  t : BitVec 64
  deriving DecidableEq, Repr

/-- R176: one byte absorbed, for a counter below `2^64 − 1`, with COMPRESS as the function of R156. -/
def absorbOne {v : Variant} (c : AbsorbCtx v) (b : Byte) : AbsorbCtx v :=
  let full := fill v c.t = v.bb
  let h := if full then compress c.h (leWord c.buf) c.t false else c.h
  let buf := if full then Vector.replicate v.bb 0 else c.buf
  { h := h, buf := buf.set (c.t.toNat % v.bb) b (Nat.mod_lt _ v.bb_pos), t := c.t + 1 }

/-- The context fields of a state. -/
def State.absorbCtx (s : State) : AbsorbCtx s.variant := { h := s.dp.h, buf := s.dp.buf, t := s.t }

/-- R171: the bytes a context counts: the key zero-padded to a block, if there is one, then the message. -/
def countedBytes (v : Variant) (key msg : List Byte) : List Byte :=
  if key.isEmpty then msg else key ++ List.replicate (v.bb - key.length) 0 ++ msg

/-- Block `j` of a byte string, zero-padded (R186). -/
def blockOf (v : Variant) (data : List Byte) (j : Nat) : Vector Byte v.bb :=
  Vector.ofFn fun i => data.getD (v.bb * j + i.val) 0

/-- R180: the chaining value after the first `n` blocks, none of them the last: block number `j` (from 1) has the
counter argument `j · BB`. -/
def chainBlocks {v : Variant} (h : Vector (Word v) 8) (data : List Byte) : Nat → Vector (Word v) 8
  | 0 => h
  | n + 1 => compress (chainBlocks h data n) (leWord (blockOf v data n)) (BitVec.ofNat 64 ((n + 1) * v.bb)) false

/-- R180: `max(1, ⌈T / BB⌉)` compressions. -/
def blockCount (v : Variant) (total : Nat) : Nat := max 1 ((total + v.bb - 1) / v.bb)

/-- R180, R195, R200: the digest of a message under a key, one compression a block, the last with the flag set and
the counter at the total. -/
def hashOf (v : Variant) (nn : BitVec 7) (key msg : List Byte) : Vector Byte 64 :=
  let data := countedBytes v key msg
  let last := blockCount v data.length - 1
  digestOf nn
    (compress (chainBlocks (initialH v nn (BitVec.ofNat 7 key.length)) data last) (leWord (blockOf v data last))
      (BitVec.ofNat 64 data.length) true)

/-- R175, R179: `s'` follows from `s` by UPDATE commands of at most 128 bytes that absorb the byte string in all, the
host filling the staging windows as it likes before each. -/
inductive Updates : State → List Byte → State → Prop
  | done (s : State) : Updates s [] s
  | more (s : State) (mem : Memory) (len : BitVec 8) (s1 : State) (bs : List Byte) (s2 : State) :
      len.toNat ≤ 128 → exec (.update len) { s with mem := mem } = .next s1 → Updates s1 bs s2 →
      Updates s (dinBytes { s with mem := mem } len.toNat ++ bs) s2

end Sys2Proof.Machine
end

