-- ==== Sys2Proof/Certificates/Slice0/Obligations.lean ====
section
/-! DEFINITION. Obligations: the statements for the provers, from the numbered rules of spec/. A statement about a
command is about `exec`; what a step does around it stands in the step statements. -/

open Sys2Proof Sys2Proof.Machine

/-! ### Encoding (30_encoding.md) -/

/-- Sanity: a few words of R91 and R101, written bit by bit as there, decode to the instructions they stand for. -/
def Obligations.WordsOfTheSpecDecode : Prop :=
  decode .B (.cmd32 0b00010000000000000010000001000000#32) = .ok (.init 64 32) ∧
  decode .S (.cmd32 0b00100000000000000000000010000000#32) = .ok (.update 128) ∧
  decode .B (.cmd32 0b00110000000000000000000000000000#32) = .ok .final ∧
  decode .S (.cmd32 0b01000000000000000000000000111111#32) = .ok (.compare 63) ∧
  decode .B (.cmd32 0b01010000000000000000000000000000#32) = .ok .abort ∧
  decode .B (.uop16 0b0001100101000000#16) = .ok (.vadd .VX .VY .VA) ∧
  decode .S (.uop16 0b0010011011000000#16) = .ok (.vxor .VD .VD .VA) ∧
  decode .B (.uop16 0b0011101100111111#16) = .ok (.vrotr .VY .VX 63) ∧
  decode .S (.uop16 0b0100010010000010#16) = .ok (.vshl .VC .VC 2) ∧
  decode .B (.uop16 0b0100011011000111#16) = .ok (.vshr .VD .VD 3)

/-- Decoding the encoding of any well-formed instruction gives it back, in both variants. -/
def Obligations.DecodeOfEncodeIsTheInstruction : Prop :=
  ∀ (v : Variant) (i : Instr), i.wf v = true → decode v (encode i) = .ok i

/-- Every word that decodes is the encoding of the instruction it decodes to, which is well formed: each instruction
has one word, and no bit of a word is dropped. -/
def Obligations.EncodeOfDecodeIsTheWord : Prop :=
  ∀ (v : Variant) (c : CodeWord) (i : Instr), decode v c = .ok i → encode i = c ∧ i.wf v = true

/-- R93: a command word decodes exactly when one row of the match/mask table fits it, to an instruction of that
row's mnemonic, and no two rows fit one word. -/
def Obligations.CommandWordsAreTheTableRows : Prop :=
  (∀ cw : BitVec 32, (∃ i, decodeCmd cw = .ok i) ↔ ∃ row ∈ commandTable, row.fits cw = true) ∧
  (∀ (cw : BitVec 32) (i : Instr), decodeCmd cw = .ok i →
    ∃ row ∈ commandTable, row.fits cw = true ∧ row.mnemonic = i.mnemonic) ∧
  ∀ (cw : BitVec 32), ∀ row ∈ commandTable, ∀ row' ∈ commandTable,
    row.fits cw = true → row'.fits cw = true → row = row'

/-- R101 to R104: a micro-op word decodes exactly when a row of the match/mask table fits it and its fields are
legal: register fields below 6, `AMT < w`, `K ≠ 0`. -/
def Obligations.MicroOpWordsAreTheLegalTableRows : Prop :=
  ∀ (v : Variant) (u : BitVec 16),
    (∃ i, decodeUop v u = .ok i) ↔
      ((u.toNat >>> 9) % 8 < 6 ∧ (u.toNat >>> 6) % 8 < 6) ∧
      ((u &&& 0xF007#16 = 0x1000#16 ∧ (u.toNat >>> 3) % 8 < 6) ∨
       (u &&& 0xF007#16 = 0x2000#16 ∧ (u.toNat >>> 3) % 8 < 6) ∨
       (u &&& 0xF000#16 = 0x3000#16 ∧ u.toNat % 64 < v.w) ∨
       (u &&& 0xF03C#16 = 0x4000#16 ∧ u.toNat % 4 ≠ 0) ∨
       (u &&& 0xF03C#16 = 0x4004#16 ∧ u.toNat % 4 ≠ 0))

/-- R106: each assembler command line is a 32-bit write of the encoding of its command to offset 0x004, CMD, and then
the implied WAIT. -/
def Obligations.AssemblerLinesWriteTheEncodings : Prop :=
  (∀ nn kk : BitVec 7, ∃ cw, encode (.init nn kk) = .cmd32 cw ∧
    initLine nn.toNat kk.toNat = .write 0x004 .bits32 cw :: waitLines) ∧
  (∀ len : BitVec 8, ∃ cw, encode (.update len) = .cmd32 cw ∧
    updateLine len.toNat = .write 0x004 .bits32 cw :: waitLines) ∧
  (∃ cw, encode .final = .cmd32 cw ∧ finalLine = .write 0x004 .bits32 cw :: waitLines) ∧
  (∀ len : BitVec 8, ∃ cw, encode (.compare len) = .cmd32 cw ∧
    compareLine len.toNat = .write 0x004 .bits32 cw :: waitLines) ∧
  ∃ cw, encode .abort = .cmd32 cw ∧ abortLine = .write 0x004 .bits32 cw :: waitLines

/-! ### The word/vector ALU (40_vector_alu.md) -/

/-- R121: VADD completes; each lane is the sum mod `2^w`, of the old values even where the destination is a source;
nothing else changes. -/
def Obligations.VaddAddsLanesModuloTheWord : Prop :=
  ∀ (s : State) (d a b : VReg), ∃ V : VFile s.variant,
    exec (.vadd d a b) s = .next { s with dp := { s.dp with vregs := V } } ∧
    (∀ j, ((V.get d).get j).toNat =
      (((s.dp.vregs.get a).get j).toNat + ((s.dp.vregs.get b).get j).toNat) % 2 ^ s.variant.w) ∧
    (∀ r, r ≠ d → V.get r = s.dp.vregs.get r) ∧
    ∃ u, encode (.vadd d a b) = .uop16 u ∧ u &&& 0xF007#16 = 0x1000#16

/-- R122: VXOR completes; each lane is the exclusive or; nothing else changes. -/
def Obligations.VxorXorsLanes : Prop :=
  ∀ (s : State) (d a b : VReg), ∃ V : VFile s.variant,
    exec (.vxor d a b) s = .next { s with dp := { s.dp with vregs := V } } ∧
    (∀ j, ((V.get d).get j).toNat = ((s.dp.vregs.get a).get j).toNat ^^^ ((s.dp.vregs.get b).get j).toNat) ∧
    (∀ r, r ≠ d → V.get r = s.dp.vregs.get r) ∧
    ∃ u, encode (.vxor d a b) = .uop16 u ∧ u &&& 0xF007#16 = 0x2000#16

/-- R15, R123: VROTR with `AMT ≤ w − 1` completes; each lane is rotated right by `AMT`; nothing else changes.
`AMT ≥ w` is refused. -/
def Obligations.VrotrRotatesLanesRight : Prop :=
  (∀ (s : State) (d a : VReg) (amt : BitVec 6), amt.toNat < s.variant.w → ∃ V : VFile s.variant,
    exec (.vrotr d a amt) s = .next { s with dp := { s.dp with vregs := V } } ∧
    (∀ j, ((V.get d).get j).toNat =
      if amt = 0 then ((s.dp.vregs.get a).get j).toNat
      else (((s.dp.vregs.get a).get j).toNat >>> amt.toNat |||
        ((s.dp.vregs.get a).get j).toNat <<< (s.variant.w - amt.toNat)) % 2 ^ s.variant.w) ∧
    (∀ r, r ≠ d → V.get r = s.dp.vregs.get r) ∧
    ∃ u, encode (.vrotr d a amt) = .uop16 u ∧ u &&& 0xF000#16 = 0x3000#16) ∧
  ∀ (s : State) (d a : VReg) (amt : BitVec 6), s.variant.w ≤ amt.toNat →
    exec (.vrotr d a amt) s = .refused (.reservedMicroOp .amountTooLarge)

/-- R123, corner cases: no bit is lost: bit `i` of the rotated word is bit `(i + AMT) mod w` of the source. -/
def Obligations.RotationMovesEveryBit : Prop :=
  ∀ (v : Variant) (x : Word v) (n i : Nat), n < v.w → i < v.w →
    (rotr x n).getLsbD i = x.getLsbD ((i + n) % v.w)

/-- R124: VSHL with `K ≠ 0` completes; lane `j` is the source's lane `(j + K) mod 4`; nothing else changes. `K = 0`
is refused. -/
def Obligations.VshlShiftsLanesLeft : Prop :=
  (∀ (s : State) (d a : VReg) (k : BitVec 2), k ≠ 0 → ∃ V : VFile s.variant,
    exec (.vshl d a k) s = .next { s with dp := { s.dp with vregs := V } } ∧
    (∀ j : Fin 4, (V.get d).get j = (s.dp.vregs.get a).get (Fin.ofNat 4 (j.val + k.toNat))) ∧
    (∀ r, r ≠ d → V.get r = s.dp.vregs.get r) ∧
    ∃ u, encode (.vshl d a k) = .uop16 u ∧ u &&& 0xF03C#16 = 0x4000#16) ∧
  ∀ (s : State) (d a : VReg), exec (.vshl d a 0) s = .refused (.reservedMicroOp .zeroShift)

/-- R125: VSHR with `K ≠ 0` completes; lane `j` is the source's lane `(j − K) mod 4`; nothing else changes. `K = 0`
is refused. -/
def Obligations.VshrShiftsLanesRight : Prop :=
  (∀ (s : State) (d a : VReg) (k : BitVec 2), k ≠ 0 → ∃ V : VFile s.variant,
    exec (.vshr d a k) s = .next { s with dp := { s.dp with vregs := V } } ∧
    (∀ j : Fin 4, (V.get d).get j = (s.dp.vregs.get a).get (Fin.ofNat 4 (j.val + 4 - k.toNat))) ∧
    (∀ r, r ≠ d → V.get r = s.dp.vregs.get r) ∧
    ∃ u, encode (.vshr d a k) = .uop16 u ∧ u &&& 0xF03C#16 = 0x4004#16) ∧
  ∀ (s : State) (d a : VReg), exec (.vshr d a 0) s = .refused (.reservedMicroOp .zeroShift)

/-- R124, R125, corner cases: VSHL #K and then VSHR #K on the same register is the identity, and VSHR #K is
VSHL #(4 − K). -/
def Obligations.LaneShiftsUndoEachOther : Prop :=
  ∀ (v : Variant) (V : VFile v) (d : VReg) (k : BitVec 2),
    aluVshr d d k (aluVshl d d k V) = V ∧ ∀ a, aluVshr d a k V = aluVshl d a (-k) V

/-- R103, R104: the reserved micro-op words (an `OP` outside 1 to 4, a non-zero bit in a field marked 0, a register
index of 6 or 7, `AMT ≥ w`, `K = 0`) do not decode, and a step that has one at the ALU's input is refused; the
microprogram ROM holds none. -/
def Obligations.ReservedMicroOpsAreRefused : Prop :=
  (∀ (v : Variant) (u : BitVec 16),
    (u.toNat >>> 12 = 0 ∨ 5 ≤ u.toNat >>> 12 ∨
      6 ≤ (u.toNat >>> 9) % 8 ∨ 6 ≤ (u.toNat >>> 6) % 8 ∨
      ((u.toNat >>> 12 = 1 ∨ u.toNat >>> 12 = 2) ∧ (6 ≤ (u.toNat >>> 3) % 8 ∨ u.toNat % 8 ≠ 0)) ∨
      (u.toNat >>> 12 = 3 ∧ v.w ≤ u.toNat % 64) ∨
      (u.toNat >>> 12 = 4 ∧ ((u.toNat >>> 3) % 8 ≠ 0 ∨ u.toNat % 4 = 0))) →
    ∃ why, decodeUop v u = .error why ∧
      ∀ s : State, s.variant = v → s.dp.seq.issue = some u → step s = .refused (.reservedMicroOp why)) ∧
  ∀ (v : Variant) (u : BitVec 16), SeqItem.uop u ∈ roundProgram v → ∃ i, decodeUop v u = .ok i

/-! ### Byte order and constants -/

/-- R16: `le_word(B, i)` is the sum of `B[WB·i + k] · 2^(8k)`, and byte `WB·i + k` of `le_bytes(W)` is
`(W[i] >> 8k) mod 256`. -/
def Obligations.BytesAndWordsAreLittleEndian : Prop :=
  (∀ (v : Variant) (buf : Vector Byte v.bb) (i : Fin 16),
    (leWord buf i).toNat = ∑ k ∈ Finset.range v.wb, (bufByte buf (v.wb * i.val + k)).toNat * 2 ^ (8 * k)) ∧
  ∀ (v : Variant) (h : Vector (Word v) 8) (i : Fin 8) (k : Nat), k < v.wb →
    (leByte h (v.wb * i.val + k)).toNat = (h[i].toNat >>> (8 * k)) % 256

/-- R143: each row of SIGMA is a permutation of 0..15. -/
def Obligations.SigmaRowsArePermutations : Prop :=
  ∀ r : Nat, Function.Bijective (sigma r)

/-! ### The compression function (41_compression.md) -/

/-- R147: the counter's words `t_lo = t mod 2^w` and `t_hi = t >> w` enter `v[12]` and `v[13]`; for BLAKE2b
`t_hi = 0`, so that `v[13] = IV[5]`, and for BLAKE2s they are the two halves of `t`. -/
def Obligations.CounterIsSplitAtTheWord : Prop :=
  (∀ (v : Variant) (h : Vector (Word v) 8) (t : BitVec 64) (last : Bool),
    (workingVector h t last)[12] = (iv v)[4] ^^^ BitVec.ofNat v.w (t.toNat % 2 ^ v.w) ∧
    (workingVector h t last)[13] = (iv v)[5] ^^^ BitVec.ofNat v.w (t.toNat / 2 ^ v.w)) ∧
  (∀ (h : Vector (Word .B) 8) (t : BitVec 64) (last : Bool), (workingVector h t last)[13] = (iv .B)[5]) ∧
  ∀ t : BitVec 64, counterLo .S t = t.extractLsb' 0 32 ∧ counterHi .S t = t.extractLsb' 32 32

/-- R148, R149: the working vector word by word: the chaining value, `IV[0..3]`, the counter's two words in
`IV[4]` and `IV[5]`, the final-block flag (all ones if `last`, else 0) in `IV[6]`, and `IV[7]` as it is; and the
datapath's load puts these words into `VA` to `VD`, row by row (R150). -/
def Obligations.WorkingVectorIsLoaded : Prop :=
  (∀ (v : Variant) (h : Vector (Word v) 8) (t : BitVec 64) (last : Bool),
    (∀ i : Fin 8, (workingVector h t last)[i.val] = h[i]) ∧
    (∀ i : Fin 4, (workingVector h t last)[8 + i.val] = (iv v)[i.val]) ∧
    (workingVector h t last)[12] = (iv v)[4] ^^^ BitVec.ofNat v.w (t.toNat % 2 ^ v.w) ∧
    (workingVector h t last)[13] = (iv v)[5] ^^^ BitVec.ofNat v.w (t.toNat / 2 ^ v.w) ∧
    (workingVector h t last)[14] = (iv v)[6] ^^^ (if last then BitVec.ofNat v.w (2 ^ v.w - 1) else 0) ∧
    (workingVector h t last)[15] = (iv v)[7]) ∧
  ∀ (v : Variant) (d : Datapath v) (t : BitVec 64) (last : Bool) (j : Fin 4),
    (seqLoad t last d).vregs.VA.get j = (workingVector d.h t last)[j.val] ∧
    (seqLoad t last d).vregs.VB.get j = (workingVector d.h t last)[4 + j.val] ∧
    (seqLoad t last d).vregs.VC.get j = (workingVector d.h t last)[8 + j.val] ∧
    (seqLoad t last d).vregs.VD.get j = (workingVector d.h t last)[12 + j.val]

/-- R152, corner cases: for fixed message words, G is a bijection on its four words. -/
def Obligations.MixingIsABijection : Prop :=
  ∀ (v : Variant) (x y : Word v), Function.Bijective fun q : GWords v => mixG q.a q.b q.c q.d x y

/-- R151, R152: the 14 micro-op words of the ROM, run by the ALU, mix every lane `j` of `(VA, VB, VC, VD)` by the
scalar G, with the lanes of VX and VY as message words. -/
def Obligations.MicroprogramMixesEveryLane : Prop :=
  ∀ (v : Variant) (d : Datapath v), ∃ V : VFile v,
    ((gMicroprogram v).map SeqItem.uop).foldl (fun d item => runItem item d) d =
      { d with vregs := V, seq := { d.seq with issue := none } } ∧
    (∀ j, ({ a := V.VA.get j, b := V.VB.get j, c := V.VC.get j, d := V.VD.get j } : GWords v) =
      mixG (d.vregs.VA.get j) (d.vregs.VB.get j) (d.vregs.VC.get j) (d.vregs.VD.get j) (d.vregs.VX.get j)
        (d.vregs.VY.get j)) ∧
    V.VX = d.vregs.VX ∧ V.VY = d.vregs.VY

/-- R154 to R157, R160, R161: the datapath (load, ROUNDS rounds of gathers and micro-ops, output) computes COMPRESS
of R156, writes nothing but `S.h` and the vector registers, and leaves the sequencer idle. -/
def Obligations.DatapathComputesCompress : Prop :=
  ∀ (v : Variant) (t : BitVec 64) (last : Bool) (d : Datapath v), ∃ V : VFile v,
    compressDatapath t last d =
      { d with h := compress d.h (leWord d.buf) t last, vregs := V, seq := Seq.idle }

/-! ### INIT, UPDATE, FINAL, ABORT (42_streaming.md) -/

/-- R146, R170, R171: INIT completes in every phase. With legal operands the context is dropped and set up anew;
with an operand out of bounds it is dropped and fails with PARAM, whatever the error before. Everything else stays,
the staging windows among it. -/
def Obligations.InitSetsUpAContext : Prop :=
  (∀ (s : State) (nn kk : BitVec 7),
    1 ≤ nn.toNat → nn.toNat ≤ s.variant.nnMax → kk.toNat ≤ s.variant.kkMax →
    ∃ (h : Vector (Word s.variant) 8) (buf : Vector Byte s.variant.bb),
      exec (.init nn kk) s = .next { s with
        dp := { s.dp with h := h, buf := buf }
        phase := .fresh
        t := if kk.toNat = 0 then 0 else BitVec.ofNat 64 s.variant.bb
        nn := nn
        dig := Vector.replicate 64 0
        eq := false
        cmpv := false
        err := .none } ∧
      h[0] = (iv s.variant)[0] ^^^ BitVec.ofNat _ (0x01010000 ^^^ kk.toNat <<< 8 ^^^ nn.toNat) ∧
      (∀ i : Fin 8, i ≠ 0 → h[i] = (iv s.variant)[i]) ∧
      ∀ j : Fin s.variant.bb, buf[j] = if j.val < kk.toNat then keyByte s j.val else 0) ∧
  (∀ (s : State) (nn kk : BitVec 7),
    (nn.toNat = 0 ∨ s.variant.nnMax < nn.toNat ∨ s.variant.kkMax < kk.toNat) →
    exec (.init nn kk) s = .next { s with
      dp := { s.dp with h := Vector.replicate 8 0, buf := Vector.replicate s.variant.bb 0 }
      phase := .failed
      t := 0
      nn := 0
      dig := Vector.replicate 64 0
      eq := false
      cmpv := false
      err := .param }) ∧
  ∀ nn kk : BitVec 7, ∃ cw, encode (.init nn kk) = .cmd32 cw ∧ cw &&& 0xFFFF8080#32 = 0x10000000#32

/-- R175: UPDATE in FRESH or ABSORBING with `LEN ≤ 128` and a counter that does not pass its limit completes: the
context is that of ABSORB (R176) over `S.din[0..LEN−1]`; everything else but the vector registers stays. It fails
with SEQ in NONE and FINALIZED, else with PARAM when `LEN > 128`, and with OVERFLOW when the counter would pass its
limit. -/
def Obligations.UpdateAbsorbsTheDinBytes : Prop :=
  (∀ (s : State) (len : BitVec 8),
    s.phase.accepting = true → len.toNat ≤ 128 → s.t.toNat + len.toNat < 2 ^ 64 →
    ∃ d : Datapath s.variant,
      exec (.update len) s = .next { s with
        dp := d
        t := s.t + len.setWidth 64
        phase := if len.toNat = 0 then s.phase else .absorbing } ∧
      ({ h := d.h, buf := d.buf, t := s.t + len.setWidth 64 } : AbsorbCtx s.variant) =
        (dinBytes s len.toNat).foldl absorbOne s.absorbCtx ∧
      (d.seq = s.dp.seq ∨ d.seq = Seq.idle)) ∧
  (∀ (s : State) (len : BitVec 8), s.phase = .none ∨ s.phase = .finalized →
    exec (.update len) s = .next (fail .seq s)) ∧
  (∀ (s : State) (len : BitVec 8), s.phase.accepting = true → 128 < len.toNat →
    exec (.update len) s = .next (fail .param s)) ∧
  (∀ (s : State) (len : BitVec 8), s.phase.accepting = true → len.toNat ≤ 128 →
    2 ^ 64 ≤ s.t.toNat + len.toNat →
    ∃ t, exec (.update len) s = .next t ∧ t.phase = .failed ∧ (s.err = .none → t.err = .overflow)) ∧
  ∀ len : BitVec 8, ∃ cw, encode (.update len) = .cmd32 cw ∧ cw &&& 0xFFFFFF00#32 = 0x20000000#32

/-- R176: where no byte of an UPDATE finds the block full, nothing is compressed: the chaining value, the vector
registers and the sequencer stay. -/
def Obligations.UpdateWithinABlockCompressesNothing : Prop :=
  ∀ (s : State) (len : BitVec 8),
    s.phase.accepting = true → len.toNat ≤ 128 → fill s.variant s.t + len.toNat ≤ s.variant.bb →
    s.t.toNat + len.toNat < 2 ^ 64 →
    ∃ buf : Vector Byte s.variant.bb,
      exec (.update len) s = .next { s with
        dp := { s.dp with buf := buf }
        t := s.t + len.setWidth 64
        phase := if len.toNat = 0 then s.phase else .absorbing } ∧
      ∀ j : Fin s.variant.bb, buf[j] =
        if fill s.variant s.t ≤ j.val ∧ j.val < fill s.variant s.t + len.toNat
        then dinByte s (j.val - fill s.variant s.t) else s.dp.buf[j]

/-- R177: UPDATE 0 in FRESH or ABSORBING changes nothing, even where a full block is buffered. -/
def Obligations.ZeroLengthUpdateChangesNothing : Prop :=
  ∀ s : State, s.phase.accepting = true → exec (.update 0) s = .next s

/-- R178: an UPDATE that would take the counter past `2^64 − 1` fails with OVERFLOW: the counter is left at
`2^64 − 1` and the context is erased. -/
def Obligations.CounterOverflowFails : Prop :=
  ∀ (s : State) (len : BitVec 8),
    s.phase.accepting = true → len.toNat ≤ 128 → 2 ^ 64 ≤ s.t.toNat + len.toNat →
    ∃ d : Datapath s.variant,
      exec (.update len) s = .next { s with
        dp := d
        t := BitVec.allOnes 64
        phase := .failed
        err := if s.err = .none then .overflow else s.err
        nn := 0
        dig := Vector.replicate 64 0
        eq := false
        cmpv := false } ∧
      d.h = Vector.replicate 8 0 ∧ d.buf = Vector.replicate s.variant.bb 0

/-- R185, R186, R200: FINAL in FRESH or ABSORBING completes: the buffer is zero-padded from the fill on and
compressed with the flag set, and the digest register takes the first `nn` bytes of the chaining value,
little-endian, and zeros. In NONE and FINALIZED it fails with SEQ. -/
def Obligations.FinalProducesTheDigest : Prop :=
  (∀ s : State, s.phase.accepting = true →
    ∃ (d : Datapath s.variant) (dig : Vector Byte 64),
      exec .final s = .next { s with dp := d, dig := dig, eq := false, cmpv := false, phase := .finalized } ∧
      (∀ j : Fin s.variant.bb, d.buf[j] = if j.val < fill s.variant s.t then s.dp.buf[j] else 0) ∧
      d.h = compress s.dp.h (leWord d.buf) s.t true ∧
      (∀ (k : Fin 64) (i : Fin 8), k.val / s.variant.wb = i.val → k.val < s.nn.toNat →
        dig[k].toNat = (d.h[i].toNat >>> (8 * (k.val % s.variant.wb))) % 256) ∧
      (∀ k : Fin 64, s.nn.toNat ≤ k.val → dig[k] = 0) ∧
      d.seq = Seq.idle) ∧
  (∀ s : State, s.phase = .none ∨ s.phase = .finalized → exec .final s = .next (fail .seq s)) ∧
  encode .final = .cmd32 0x30000000#32

/-- R190: ABORT completes in every phase: the context is cleared and everything else, the staging windows among it,
stays. -/
def Obligations.AbortDropsTheContext : Prop :=
  (∀ s : State, exec .abort s = .next { s with
    dp := { s.dp with h := Vector.replicate 8 0, buf := Vector.replicate s.variant.bb 0 }
    phase := .none
    t := 0
    nn := 0
    dig := Vector.replicate 64 0
    eq := false
    cmpv := false
    err := .none }) ∧
  encode .abort = .cmd32 0x50000000#32

/-- R170 to R187, R195, R200, for every phase before and every legal `NN` and `KK`. Premises: `s1` follows from a
completed INIT by completed UPDATEs, cut and staged in any way, that absorb the message in all, and the bytes counted
(the key's block, if there is a key, and the message) stay below `2^64`. Then FINAL completes, and the digest register
holds the one-shot keyed hash of the message, computed one compression a block as R180 counts them. -/
def Obligations.StreamingEqualsOneShotHash : Prop :=
  ∀ (s s1 : State) (nn kk : BitVec 7) (msg : List Byte),
    1 ≤ nn.toNat → nn.toNat ≤ s.variant.nnMax → kk.toNat ≤ s.variant.kkMax →
    (if kk = 0 then 0 else s.variant.bb) + msg.length < 2 ^ 64 →
    (∃ s0, exec (.init nn kk) s = .next s0 ∧ Updates s0 msg s1) →
    ∃ s2, exec .final s1 = .next s2 ∧ s2.phase = .finalized ∧ s2.nn = nn ∧
      s2.dig = hashOf s.variant nn ((List.range kk.toNat).map (keyByte s)) msg

/-! ### COMPARE (43_result_compare.md) -/

/-- R205, R207: COMPARE in FINALIZED completes: `EQ` says whether the lengths agree and the first `nn` bytes of the
digest register and the REF window do; `CMPV` is set; nothing else changes. It fails with SEQ in NONE, FRESH and
ABSORBING, and changes nothing in FAILED. The premise on `S.nn` is a clause of Inv. -/
def Obligations.CompareTellsEquality : Prop :=
  (∀ (s : State) (len : BitVec 8), s.phase = .finalized → s.nn.toNat ≤ s.variant.nnMax →
    exec (.compare len) s = .next { s with
      eq := decide (len.toNat = s.nn.toNat ∧ ∀ i : Fin 64, i.val < s.nn.toNat → s.dig[i] = refByte s i.val)
      cmpv := true }) ∧
  (∀ (s : State) (len : BitVec 8), s.phase = .none ∨ s.phase = .fresh ∨ s.phase = .absorbing →
    exec (.compare len) s = .next (fail .seq s)) ∧
  (∀ (s : State) (len : BitVec 8), s.phase = .failed → exec (.compare len) s = .next s) ∧
  ∀ len : BitVec 8, ∃ cw, encode (.compare len) = .cmd32 cw ∧ cw &&& 0xFFFFFF00#32 = 0x40000000#32

/-! ### Errors (60_exceptions.md) -/

/-- R230, R232: the failure entry: the first error is kept; the chaining value, the buffer, the digest register,
`nn`, `EQ` and `CMPV` are cleared; the counter, the windows and everything else are kept. A second one changes
nothing: errors do not nest. -/
def Obligations.FailureEntry : Prop :=
  (∀ (code : ErrCode) (s : State), fail code s = { s with
    err := if s.err = .none then code else s.err
    phase := .failed
    dp := { s.dp with h := Vector.replicate 8 0, buf := Vector.replicate s.variant.bb 0 }
    dig := Vector.replicate 64 0
    nn := 0
    eq := false
    cmpv := false }) ∧
  ∀ (first second : ErrCode) (s : State), first ≠ .none → fail second (fail first s) = fail first s

/-- R223, R226, R231: UPDATE and FINAL in NONE and FINALIZED, and COMPARE in NONE, FRESH and ABSORBING, fail with
SEQ, whatever the operand; in FAILED they change nothing; INIT and ABORT never raise SEQ, nor do UPDATE, FINAL and
COMPARE in the phases where they are valid. -/
def Obligations.OutOfSequenceCommandsFail : Prop :=
  (∀ (s : State) (len : BitVec 8), s.phase = .none ∨ s.phase = .finalized →
    exec (.update len) s = .next (fail .seq s) ∧ exec .final s = .next (fail .seq s)) ∧
  (∀ (s : State) (len : BitVec 8), s.phase = .none ∨ s.phase = .fresh ∨ s.phase = .absorbing →
    exec (.compare len) s = .next (fail .seq s)) ∧
  (∀ (s : State) (len : BitVec 8), s.phase = .failed →
    exec (.update len) s = .next s ∧ exec .final s = .next s ∧ exec (.compare len) s = .next s) ∧
  (∀ (s s' : State) (nn kk : BitVec 7), exec (.init nn kk) s = .next s' ∨ exec .abort s = .next s' →
    s'.err ≠ .seq) ∧
  (∀ (s s' : State) (len : BitVec 8), s.phase.accepting = true → s.err ≠ .seq →
    exec (.update len) s = .next s' ∨ exec .final s = .next s' → s'.err ≠ .seq) ∧
  ∀ (s s' : State) (len : BitVec 8), s.phase = .finalized → s.err ≠ .seq →
    exec (.compare len) s = .next s' → s'.err ≠ .seq

/-- R222: PARAM is raised by INIT with an operand out of bounds, leaving no context, and by UPDATE with `LEN > 128`;
never by COMPARE. -/
def Obligations.OperandsOutOfBoundsFail : Prop :=
  (∀ (s : State) (nn kk : BitVec 7),
    (nn.toNat = 0 ∨ s.variant.nnMax < nn.toNat ∨ s.variant.kkMax < kk.toNat) →
    ∃ t, exec (.init nn kk) s = .next t ∧ t.err = .param ∧ t.phase = .failed ∧ t.nn = 0 ∧ t.t = 0) ∧
  (∀ (s : State) (len : BitVec 8), s.phase.accepting = true → 128 < len.toNat →
    exec (.update len) s = .next (fail .param s)) ∧
  ∀ (s s' : State) (len : BitVec 8), s.err ≠ .param → exec (.compare len) s = .next s' → s'.err ≠ .param

/-- R232: a step leaves FAILED only by reset, or by the engine completing an INIT or an ABORT. -/
def Obligations.OnlyInitAbortOrResetLeaveFailed : Prop :=
  ∀ s s' : State, NoIssue s → s.phase = .failed → step s = .next s' → s'.phase ≠ .failed →
    s.bus.head? = some .reset ∨
    (s.busy = true ∧ (s.bus = [] ∨ s.bus.head? = some .engine) ∧
      ((∃ nn kk, decodeCmd s.pending = .ok (.init nn kk)) ∨ decodeCmd s.pending = .ok .abort))

/-- R231: in FAILED a pending word other than a well-formed INIT or ABORT changes nothing but the handshake, a
recorded violation or not. The invariant is a premise: it says that the context of a FAILED state is erased. -/
def Obligations.FailedRefusesEverythingElse : Prop :=
  ∀ (s : State) (rest : List BusEvent), s.Inv → NoIssue s → s.phase = .failed → s.busy = true →
    s.bus = .engine :: rest →
    (∀ i, decodeCmd s.pending = .ok i → i ≠ .abort ∧ ∀ nn kk, i ≠ .init nn kk) →
    step s = .next { s with bus := rest, viol := false, busy := false }

/-! ### Steps (R255 to R260 of 70_reset_and_hazards.md) -/

/-- R256: when the engine's turn is the next event, the step performs the pending word: `exec` of the instruction it
decodes to, or the illegal word's rule; then BUSY is raised if a violation was recorded, and the handshake ends. The
turn that an empty list of events gives the engine is in EveryCommandCompletes. -/
def Obligations.StepCompletesThePendingCommand : Prop :=
  ∀ (s : State) (rest : List BusEvent), NoIssue s → s.busy = true → s.bus = .engine :: rest →
    (∀ i, decodeCmd s.pending = .ok i →
      step s = mapNext (fun t => { (if t.viol then fail .busy t else t) with viol := false, busy := false })
        (exec i { s with bus := rest })) ∧
    (∀ why, decodeCmd s.pending = .error why →
      step s = .next { (if s.viol then fail .busy (illegalWord { s with bus := rest })
          else illegalWord { s with bus := rest }) with viol := false, busy := false })

/-- R100, R129: when a micro-op word stands at the ALU's input and decodes, the step is `exec` of it, and the word
has left the input. -/
def Obligations.StepRunsTheIssuedMicroOp : Prop :=
  ∀ (s : State) (u : BitVec 16) (i : Instr), s.dp.seq.issue = some u → decodeUop s.variant u = .ok i →
    step s = mapNext (fun t => { t with dp := { t.dp with seq := { t.dp.seq with issue := none } } }) (exec i s)

/-- A placed word is what the next step runs (the model's own convention, log entry 7). -/
def Obligations.PlacedWordRunsNext : Prop :=
  (∀ (s : State) (cw : BitVec 32) (i : Instr), decodeCmd cw = .ok i →
    step (s.withFetchWord 32 cw.toNat) = mapNext endCommand (exec i { s with
      dp := { s.dp with seq := { s.dp.seq with issue := none } }
      pending := cw
      viol := false
      busy := true })) ∧
  ∀ (s : State) (u : BitVec 16) (i : Instr), decodeUop s.variant u = .ok i →
    step (s.withFetchWord 16 u.toNat) = mapNext clearIssue (exec i { s with
      dp := { s.dp with seq := { s.dp.seq with issue := some u } } })

/-- R221: a pending word that fits no row of R93's table raises ILLEGAL when the engine's turn comes, with no part of
any command performed; in FAILED it is refused and nothing changes; then the handshake ends as for any command. -/
def Obligations.IllegalWordsFail : Prop :=
  ∀ (s : State) (rest : List BusEvent), NoIssue s → s.busy = true → s.bus = .engine :: rest →
    (∀ row ∈ commandTable, row.fits s.pending = false) →
    (s.phase ≠ .failed → step s = .next (endCommand (fail .illegal { s with bus := rest }))) ∧
    (s.phase = .failed → step s = .next (endCommand { s with bus := rest }))

/-- R225, R256: after the engine's turn on a pending command the block is not busy and no violation stands; and
where one was recorded, the phase is FAILED with an error code. -/
def Obligations.CompletionEndsTheHandshake : Prop :=
  ∀ (s : State) (rest : List BusEvent), NoIssue s → s.busy = true → s.bus = .engine :: rest →
    ∃ s', step s = .next s' ∧ s'.busy = false ∧ s'.viol = false ∧ s'.bus = rest ∧
      (s.viol = true → s'.phase = .failed ∧ s'.err ≠ .none)

/-- R255, R258: an aligned 32-bit write to CMD starts a command when the block is not busy; while it is busy, an
aligned 32-bit write to any offset is dropped and recorded. Nothing is said here of the bus's answer to the write. -/
def Obligations.CommandWriteStartsOrIsDropped : Prop :=
  ∀ (s : State) (rest : List BusEvent) (off : BitVec 12) (val : BitVec 32), NoIssue s → off.toNat % 4 = 0 →
    s.bus = .write off .bits32 val :: rest →
    (s.busy = false → off = 0x004 →
      ∃ resp, step s = .next { s with bus := rest, pending := val, viol := false, busy := true, resp := resp }) ∧
    (s.busy = true → ∃ resp, step s = .next { s with bus := rest, viol := true, resp := resp })

/-- R69, R255: a step makes an idle block busy only by an aligned 32-bit write to CMD. -/
def Obligations.OnlyCommandWritesStartCommands : Prop :=
  ∀ s s' : State, step s = .next s' → s.busy = false → s'.busy = true →
    ∃ val rest, s.bus = .write 0x004 .bits32 val :: rest ∧ s'.pending = val ∧ s'.bus = rest

/-- R46, R68, R74: with the block not busy, an aligned 32-bit write to a read-only register, to the DIGEST window or
to a reserved offset is ignored. The answer is the model's own choice (log entry 4): every aligned 32-bit write is
acknowledged, whether it starts a command, stores, is ignored, or is dropped while busy. -/
def Obligations.WritesToReadOnlyOffsetsAreIgnored : Prop :=
  (∀ (s : State) (rest : List BusEvent) (off : BitVec 12) (val : BitVec 32), NoIssue s → s.busy = false →
    off.toNat % 4 = 0 → off ≠ 0x004 → (off.toNat < 0x040 ∨ 0x140 ≤ off.toNat) →
    s.bus = .write off .bits32 val :: rest →
    step s = .next { s with bus := rest, resp := .ack }) ∧
  ∀ (s : State) (rest : List BusEvent) (off : BitVec 12) (val : BitVec 32), NoIssue s → off.toNat % 4 = 0 →
    s.bus = .write off .bits32 val :: rest → ∃ t, step s = .next t ∧ t.resp = .ack

/-- R64, R72: an aligned 32-bit write to the KEY, DIN or REF window: with the block not busy it stores its four
bytes, least significant first, and no other byte, keeps the canonical form, and changes nothing else; while busy it
is dropped. Nothing is said here of the bus's answer to the write. -/
def Obligations.WindowWritesStoreFourBytes : Prop :=
  ∀ (s : State) (rest : List BusEvent) (off : BitVec 12) (val : BitVec 32), NoIssue s →
    off.toNat % 4 = 0 → 0x040 ≤ off.toNat → off.toNat < 0x140 → s.bus = .write off .bits32 val :: rest →
    (s.busy = false →
      ∃ (mem : Memory) (resp : BusResp), step s = .next { s with bus := rest, mem := mem, resp := resp } ∧
        (∀ i, i < 4 → (Memory.read mem (off.toNat + i)).toNat = (val.toNat >>> (8 * i)) % 256) ∧
        (∀ a, a < off.toNat ∨ off.toNat + 4 ≤ a → Memory.read mem a = Memory.read s.mem a) ∧
        (Memory.wf s.mem → Memory.wf mem)) ∧
    (s.busy = true → ∃ resp, step s = .next { s with bus := rest, viol := true, resp := resp })

/-- R63, R246: an access of another width, or at an offset that is no multiple of 4, gets a bus error and changes
nothing, busy or not. -/
def Obligations.BadAccessesGetABusError : Prop :=
  ∀ (s : State) (rest : List BusEvent) (off : BitVec 12) (width : AccessWidth) (val : BitVec 32), NoIssue s →
    (width ≠ .bits32 ∨ off.toNat % 4 ≠ 0) →
    (s.bus = .write off width val :: rest ∨ s.bus = .read off width :: rest) →
    step s = .next { s with bus := rest, resp := .error }

/-! ### Reads (section 6 of 10_state.md, R259) -/

/-- R69, R259: a read of any width at any offset changes nothing of the block: only the answer, and the model's
count of free values, may differ. An aligned 32-bit read is `hostRead` of its offset, whose answer the other
read statements pin down. -/
def Obligations.ReadsHaveNoSideEffect : Prop :=
  ∀ (s : State) (rest : List BusEvent) (off : BitVec 12) (width : AccessWidth), NoIssue s →
    s.bus = .read off width :: rest →
    (∃ (resp : BusResp) (draws : Nat), step s = .next { s with bus := rest, resp := resp, draws := draws }) ∧
    (width = .bits32 → off.toNat % 4 = 0 → step s = .next (hostRead off { s with bus := rest }))

/-- R40, R41, R43, R44, R203: what ID, CMD, DLEN, COUNT_LO and COUNT_HI read with the block not busy. -/
def Obligations.PlainRegistersRead : Prop :=
  ∀ s : State, s.busy = false →
    (hostRead 0x000 s).resp = .data (match s.variant with | .B => 0x01400C62 | .S => 0x01200A73) ∧
    (hostRead 0x004 s).resp = .data 0 ∧
    (hostRead 0x00C s).resp = .data (if s.phase.live then BitVec.ofNat 32 s.nn.toNat else 0) ∧
    (hostRead 0x010 s).resp = .data (BitVec.ofNat 32 (s.t.toNat % 2 ^ 32)) ∧
    (hostRead 0x014 s).resp = .data (BitVec.ofNat 32 (s.t.toNat / 2 ^ 32))

/-- R21, R26, R42, R220: the fields of STATUS with the block not busy, and zeros everywhere else; while busy, bit 3
reads 1. -/
def Obligations.StatusShowsItsFields : Prop :=
  (∀ s : State, s.busy = false →
    ∃ word : BitVec 32, (hostRead 0x008 s).resp = .data word ∧
      word.toNat % 8 = (match s.phase with
        | .none => 0 | .fresh => 1 | .absorbing => 2 | .finalized => 3 | .failed => 4) ∧
      word.getLsbD 3 = false ∧ word.getLsbD 4 = s.eq ∧ word.getLsbD 5 = s.cmpv ∧
      (word.toNat >>> 6) % 4 = 0 ∧
      (word.toNat >>> 8) % 16 = (match s.err with
        | .none => 0 | .illegal => 1 | .param => 2 | .seq => 3 | .overflow => 4 | .busy => 5) ∧
      (word.toNat >>> 12) % 16 = 0 ∧
      (word.toNat >>> 16) % 256 = (if s.phase.accepting then
        (if s.t.toNat = 0 then 0 else (s.t.toNat - 1) % s.variant.bb + 1) else 0) ∧
      word.toNat >>> 24 = 0) ∧
  ∀ s : State, s.busy = true →
    ∃ word : BitVec 32, (hostRead 0x008 s).resp = .data word ∧ word.getLsbD 3 = true

/-- R45, R46, R64, R68, R71, R73: KEY and the reserved offsets read 0; DIN and REF read the stored bytes, least
significant first; all of them busy or not. -/
def Obligations.StagingWindowsRead : Prop :=
  ∀ (s : State) (off : BitVec 12), off.toNat % 4 = 0 →
    (0x040 ≤ off.toNat → off.toNat < 0x080 → (hostRead off s).resp = .data 0) ∧
    ((0x018 ≤ off.toNat ∧ off.toNat < 0x040) ∨ 0x180 ≤ off.toNat → (hostRead off s).resp = .data 0) ∧
    (0x080 ≤ off.toNat → off.toNat < 0x140 →
      ∃ word : BitVec 32, (hostRead off s).resp = .data word ∧
        ∀ i, i < 4 → (word.toNat >>> (8 * i)) % 256 = (Memory.read s.mem (off.toNat + i)).toNat)

/-- R70, R201: byte `k` of the DIGEST window reads `S.dig[k]` in FINALIZED below `nn`, and 0 otherwise. -/
def Obligations.DigestWindowIsMasked : Prop :=
  ∀ (s : State) (off : BitVec 12), s.busy = false → off.toNat % 4 = 0 → 0x140 ≤ off.toNat →
    off.toNat < 0x180 →
    ∃ word : BitVec 32, (hostRead off s).resp = .data word ∧
      ∀ (i : Nat) (k : Fin 64), i < 4 → k.val + 0x140 = off.toNat + i →
        (word.toNat >>> (8 * i)) % 256 = if s.phase = .finalized ∧ k.val < s.nn.toNat then s.dig[k].toNat else 0

/-- R259: reads while busy, by the table: ID its constant; CMD, KEY and the reserved offsets 0; STATUS a word with
BUSY set; DIN and REF the stored bytes; DLEN, COUNT and DIGEST some word, of which nothing is said. No read changes
anything of the block. -/
def Obligations.ReadsWhileBusy : Prop :=
  ∀ s : State, s.busy = true →
    (hostRead 0x000 s).resp = .data (match s.variant with | .B => 0x01400C62 | .S => 0x01200A73) ∧
    (hostRead 0x004 s).resp = .data 0 ∧
    (∃ word : BitVec 32, (hostRead 0x008 s).resp = .data word ∧ word.getLsbD 3 = true) ∧
    ∀ off : BitVec 12, off.toNat % 4 = 0 →
      (((0x018 ≤ off.toNat ∧ off.toNat < 0x080) ∨ 0x180 ≤ off.toNat) → (hostRead off s).resp = .data 0) ∧
      (0x080 ≤ off.toNat → off.toNat < 0x140 →
        (hostRead off s).resp = .data (Memory.loadWord s.mem off.toNat)) ∧
      ∃ (word : BitVec 32) (draws : Nat), hostRead off s = { s with resp := .data word, draws := draws }

/-- R71, R240: what a read answers depends neither on the KEY window's bytes nor on the chaining value, the block
buffer or the vector registers: key bytes cannot be read back through the block. -/
def Obligations.ReadsRevealNoKey : Prop :=
  ∀ (s : State) (mem : Memory) (dp : Datapath s.variant) (off : BitVec 12) (width : AccessWidth),
    (∀ a, a < 0x040 ∨ 0x080 ≤ a → Memory.read mem a = Memory.read s.mem a) →
    (busRead off width { s with mem := mem, dp := dp }).resp = (busRead off width s).resp

/-- R60: the base is 4 KiB aligned, an address of the window is the base plus its offset, and no address outside the
window reaches the block. -/
def Obligations.WindowIsFourKibibytes : Prop :=
  Config.b2coreBase % 4096 = 0 ∧
  (∀ off : BitVec 12, windowOffset (Config.b2coreBase + off.toNat) = some off) ∧
  ∀ addr, addr < Config.b2coreBase ∨ Config.b2coreBase + 4096 ≤ addr → windowOffset addr = none

/-! ### Reset (R50, R250, R251) -/

/-- R50: the value of every field of the spec after reset, in both variants, and what every aligned offset reads: 0,
but for ID. -/
def Obligations.ResetValues : Prop :=
  ∀ v : Variant,
    ((State.resetOf v).variant = v ∧ (State.resetOf v).phase = .none ∧
     (∀ i : Fin 8, (State.resetOf v).dp.h[i] = 0) ∧ (∀ j : Fin v.bb, (State.resetOf v).dp.buf[j] = 0) ∧
     (State.resetOf v).t = 0 ∧ (State.resetOf v).nn = 0 ∧ (∀ k : Fin 64, (State.resetOf v).dig[k] = 0) ∧
     (State.resetOf v).eq = false ∧ (State.resetOf v).cmpv = false ∧ (State.resetOf v).err = .none ∧
     (State.resetOf v).busy = false ∧ (State.resetOf v).viol = false ∧ (State.resetOf v).pending = 0 ∧
     (∀ a, Memory.read (State.resetOf v).mem a = 0) ∧
     (∀ (r : VReg) (j : Fin 4), ((State.resetOf v).dp.vregs.get r).get j = 0) ∧
     (State.resetOf v).dp.seq.busy = false) ∧
    (hostRead 0 (State.resetOf v)).resp = .data (match v with | .B => 0x01400C62 | .S => 0x01200A73) ∧
    ∀ off : BitVec 12, off.toNat % 4 = 0 → off ≠ 0 → (hostRead off (State.resetOf v)).resp = .data 0

/-- R250, R251: reset is taken whatever the block is doing, and puts every field of the spec at its reset value.
Nothing is said here of the model's own fields `resp` and `draws` (log entries 3, 4 and 11). -/
def Obligations.ResetIsTakenAtAnyTime : Prop :=
  ∀ (s : State) (rest : List BusEvent), NoIssue s → s.bus = .reset :: rest →
    ∃ (resp : BusResp) (draws : Nat),
      step s = .next { State.resetOf s.variant with bus := rest, resp := resp, draws := draws }

/-! ### Whole-machine rules -/

/-- R34, R69: no instruction changes the staging windows, and none touches the variant, the handshake fields or the
bus; and a step changes the staging windows only by a host write or a reset. -/
def Obligations.InstructionsLeaveTheHostSideAlone : Prop :=
  (∀ (i : Instr) (s s' : State), exec i s = .next s' →
    s'.variant = s.variant ∧ s'.mem = s.mem ∧ s'.busy = s.busy ∧ s'.viol = s.viol ∧ s'.pending = s.pending ∧
    s'.bus = s.bus ∧ s'.resp = s.resp ∧ s'.draws = s.draws) ∧
  ∀ s s' : State, step s = .next s' → s'.mem ≠ s.mem →
    s.dp.seq.issue = none ∧
    (s.bus.head? = some .reset ∨ (s.busy = false ∧ ∃ off val, s.bus.head? = some (.write off .bits32 val)))

/-- The invariant of Safety.lean holds right after reset, in both variants. -/
def Obligations.ResetSatisfiesTheInvariant : Prop :=
  ∀ v : Variant, (State.resetOf v).Inv

/-- Every step keeps the invariant of Safety.lean, from every state that has it, whatever the host does and whatever
micro-op is issued. -/
def Obligations.StepKeepsTheInvariant : Prop :=
  ∀ s s' : State, s.Inv → step s = .next s' → s'.Inv

/-- R260 and U18: nothing is stuck: without a micro-op at the ALU's input, every step goes on. -/
def Obligations.NothingIsStuck : Prop :=
  ∀ s : State, NoIssue s → StepGoesOn s

/-- R260: every started command completes: after the events to come and one more step, the block is not busy. That
last turn is the model's own choice (log entry 2): when no event is left to come, the step is the one that an engine's
turn at the head of the list would give. -/
def Obligations.EveryCommandCompletes : Prop :=
  (∀ s : State, NoIssue s → ∃ s', Sys2Proof.core.run (s.bus.length + 1) s = .next s' ∧ s'.busy = false) ∧
  ∀ s : State, NoIssue s → s.bus = [] → step s = step { s with bus := [.engine] }
end

