-- ==== Sys2Proof/Laws/Memory.lean ====
section
/-! SUPPORT. Laws/Memory: read after write, and the canonical form kept by every memory operation. -/

namespace Sys2Proof.Machine

/-! ### Reading -/

@[simp] theorem memory_read_nil (a : Nat) : Memory.read [] a = 0 := rfl

theorem memory_read_cons (c : Host.Cell) (m : Memory) (a : Nat) :
    Memory.read (c :: m) a = if c.1 = a then c.2 else Memory.read m a := rfl

theorem memory_read_filter_same (m : Memory) (a : Nat) : Memory.read (m.filter fun c => c.1 != a) a = 0 := by
  induction m with
  | nil => rfl
  | cons c m ih =>
    by_cases h : c.1 = a
    · simp [h, ih]
    · simp [h, memory_read_cons, ih]

theorem memory_read_filter_of_ne (m : Memory) {a b : Nat} (hab : b ≠ a) :
    Memory.read (m.filter fun c => c.1 != a) b = Memory.read m b := by
  induction m with
  | nil => rfl
  | cons c m ih =>
    by_cases h : c.1 = a
    · have : c.1 ≠ b := fun hb => hab (hb ▸ h)
      simp [h, memory_read_cons, ih, Ne.symm hab]
    · simp [h, memory_read_cons, ih]

theorem memory_read_insertCell_of_ne (m : Memory) (c : Host.Cell) {b : Nat} (hb : b ≠ c.1) :
    Memory.read (Memory.insertCell m c) b = Memory.read m b := by
  induction m with
  | nil => simp [Memory.insertCell, memory_read_cons, Ne.symm hb]
  | cons d m ih =>
    simp only [Memory.insertCell]
    split
    · simp [memory_read_cons, Ne.symm hb]
    · simp [memory_read_cons, ih]

theorem memory_read_insertCell_same (m : Memory) (c : Host.Cell) (h : ∀ d ∈ m, d.1 ≠ c.1) :
    Memory.read (Memory.insertCell m c) c.1 = c.2 := by
  induction m with
  | nil => simp [Memory.insertCell, memory_read_cons]
  | cons d m ih =>
    have hd := h d (by simp)
    simp only [Memory.insertCell]
    split
    · simp [memory_read_cons]
    · simp [memory_read_cons, hd, ih fun e he => h e (by simp [he])]

theorem memory_read_write_same (m : Memory) (a : Nat) (b : Byte) : Memory.read (Memory.write m a b) a = b := by
  unfold Memory.write
  split
  · next h => rw [memory_read_filter_same, h]
  · exact memory_read_insertCell_same _ (a, b) (by simp)

theorem memory_read_write_of_ne (m : Memory) {a c : Nat} (b : Byte) (h : c ≠ a) :
    Memory.read (Memory.write m a b) c = Memory.read m c := by
  unfold Memory.write
  split
  · exact memory_read_filter_of_ne m h
  · rw [memory_read_insertCell_of_ne _ (a, b) h, memory_read_filter_of_ne m h]

/-! ### The canonical form -/

theorem memory_mem_insertCell {m : Memory} {c d : Host.Cell} : d ∈ Memory.insertCell m c ↔ d = c ∨ d ∈ m := by
  induction m with
  | nil => simp [Memory.insertCell]
  | cons e m ih =>
    simp only [Memory.insertCell]
    split
    · simp
    · simp only [List.mem_cons, ih]
      tauto

theorem memory_insertCell_sorted {m : Memory} {c : Host.Cell} (hm : List.Pairwise (fun c d => c.1 < d.1) m)
    (hc : ∀ d ∈ m, d.1 ≠ c.1) : List.Pairwise (fun c d => c.1 < d.1) (Memory.insertCell m c) := by
  induction m with
  | nil => simp [Memory.insertCell]
  | cons e m ih =>
    obtain ⟨he, hm'⟩ := List.pairwise_cons.mp hm
    have hne : e.1 ≠ c.1 := hc e (by simp)
    simp only [Memory.insertCell]
    split
    · next hlt =>
      refine List.pairwise_cons.mpr ⟨fun d hd => ?_, hm⟩
      rcases List.mem_cons.mp hd with rfl | hd
      · exact hlt
      · exact hlt.trans (he d hd)
    · next hlt =>
      refine List.pairwise_cons.mpr ⟨fun d hd => ?_, ih hm' fun d hd => hc d (by simp [hd])⟩
      rcases memory_mem_insertCell.mp hd with rfl | hd
      · omega
      · exact he d hd

theorem memory_write_wf {m : Memory} (hm : Memory.wf m) (a : Nat) (b : Byte) : Memory.wf (Memory.write m a b) := by
  have hsorted : List.Pairwise (fun c d => c.1 < d.1) (m.filter fun c => c.1 != a) := hm.1.filter _
  have hnz : ∀ c ∈ m.filter (fun c => c.1 != a), c.2 ≠ 0 := fun c hc => hm.2 c (List.mem_of_mem_filter hc)
  unfold Memory.write
  split
  · exact ⟨hsorted, hnz⟩
  · next hb =>
    refine ⟨memory_insertCell_sorted hsorted (by simp), fun c hc => ?_⟩
    rcases memory_mem_insertCell.mp hc with rfl | hc
    · exact hb
    · exact hnz c hc

theorem memory_write_cells {m : Memory} {a : Nat} {b : Byte} {c : Host.Cell} (h : c ∈ Memory.write m a b) :
    c ∈ m ∨ c.1 = a := by
  unfold Memory.write at h
  split at h
  · exact .inl (List.mem_of_mem_filter h)
  · rcases memory_mem_insertCell.mp h with rfl | h
    · exact .inr rfl
    · exact .inl (List.mem_of_mem_filter h)

/-! ### Words -/

theorem memory_storeWord_wf {m : Memory} (hm : Memory.wf m) (a : Nat) (x : BitVec 32) :
    Memory.wf (Memory.storeWord m a x) :=
  memory_write_wf (memory_write_wf (memory_write_wf (memory_write_wf hm _ _) _ _) _ _) _ _

theorem memory_storeWord_cells {m : Memory} {a : Nat} {x : BitVec 32} {c : Host.Cell}
    (h : c ∈ Memory.storeWord m a x) : c ∈ m ∨ (a ≤ c.1 ∧ c.1 < a + 4) := by
  rcases memory_write_cells h with h | h
  · rcases memory_write_cells h with h | h
    · rcases memory_write_cells h with h | h
      · rcases memory_write_cells h with h | h
        · exact .inl h
        · exact .inr (by omega)
      · exact .inr (by omega)
    · exact .inr (by omega)
  · exact .inr (by omega)

theorem memory_read_storeWord_outside (m : Memory) {a c : Nat} (x : BitVec 32) (h : c < a ∨ a + 4 ≤ c) :
    Memory.read (Memory.storeWord m a x) c = Memory.read m c := by
  unfold Memory.storeWord
  rw [memory_read_write_of_ne _ _ (by omega), memory_read_write_of_ne _ _ (by omega),
    memory_read_write_of_ne _ _ (by omega), memory_read_write_of_ne _ _ (by omega)]

theorem memory_read_storeWord_inside (m : Memory) (a : Nat) (x : BitVec 32) {i : Nat} (hi : i < 4) :
    Memory.read (Memory.storeWord m a x) (a + i) = byteOf x i := by
  unfold Memory.storeWord
  match i, hi with
  | 0, _ =>
    rw [memory_read_write_of_ne _ _ (by omega), memory_read_write_of_ne _ _ (by omega),
      memory_read_write_of_ne _ _ (by omega)]
    exact memory_read_write_same _ _ _
  | 1, _ =>
    rw [memory_read_write_of_ne _ _ (by omega), memory_read_write_of_ne _ _ (by omega), memory_read_write_same]
  | 2, _ => rw [memory_read_write_of_ne _ _ (by omega), memory_read_write_same]
  | 3, _ => exact memory_read_write_same _ _ _

theorem memory_reset_wf : Memory.wf State.reset.mem := by decide

end Sys2Proof.Machine
end

