-- ==== Sys2Proof/Laws/Bus.lean ====
section
/-! SUPPORT. Laws/Bus: the address map by ranges (R74), and what a host access can do. -/

namespace Sys2Proof.Machine

/-! ### The address map -/

/-- From the KEY window on, the map goes by the window bases alone. -/
theorem hostReg_high {off : BitVec 12} (h : 0x018 ≤ off.toNat) :
    hostReg off =
      if off.toNat < 0x040 then .reserved
      else if off.toNat < 0x080 then .key off.toNat
      else if off.toNat < 0x100 then .din off.toNat
      else if off.toNat < 0x140 then .ref off.toNat
      else if off.toNat < 0x180 then .digest off.toNat
      else .reserved := by
  unfold hostReg
  rw [if_neg (by omega), if_neg (by omega), if_neg (by omega), if_neg (by omega), if_neg (by omega),
    if_neg (by omega)]
  rfl

theorem hostReg_key {off : BitVec 12} (h : 0x040 ≤ off.toNat) (h' : off.toNat < 0x080) :
    hostReg off = .key off.toNat := by
  rw [hostReg_high (by omega), if_neg (by omega), if_pos h']

theorem hostReg_din {off : BitVec 12} (h : 0x080 ≤ off.toNat) (h' : off.toNat < 0x100) :
    hostReg off = .din off.toNat := by
  rw [hostReg_high (by omega), if_neg (by omega), if_neg (by omega), if_pos h']

theorem hostReg_ref {off : BitVec 12} (h : 0x100 ≤ off.toNat) (h' : off.toNat < 0x140) :
    hostReg off = .ref off.toNat := by
  rw [hostReg_high (by omega), if_neg (by omega), if_neg (by omega), if_neg (by omega), if_pos h']

theorem hostReg_digest {off : BitVec 12} (h : 0x140 ≤ off.toNat) (h' : off.toNat < 0x180) :
    hostReg off = .digest off.toNat := by
  rw [hostReg_high (by omega), if_neg (by omega), if_neg (by omega), if_neg (by omega), if_neg (by omega), if_pos h']

theorem hostReg_reserved {off : BitVec 12} (h : (0x018 ≤ off.toNat ∧ off.toNat < 0x040) ∨ 0x180 ≤ off.toNat) :
    hostReg off = .reserved := by
  rcases h with ⟨h, h'⟩ | h
  · rw [hostReg_high h, if_pos h']
  · rw [hostReg_high (by omega), if_neg (by omega), if_neg (by omega), if_neg (by omega), if_neg (by omega),
      if_neg (by omega)]

/-- The registers below the reserved range, each at its offset. -/
theorem hostReg_low {off : BitVec 12} (h : off.toNat < 0x018) (h' : off.toNat % 4 = 0) :
    (off.toNat = 0x000 ∧ hostReg off = .id) ∨ (off.toNat = 0x004 ∧ hostReg off = .cmd) ∨
    (off.toNat = 0x008 ∧ hostReg off = .status) ∨ (off.toNat = 0x00C ∧ hostReg off = .dlen) ∨
    (off.toNat = 0x010 ∧ hostReg off = .countLo) ∨ (off.toNat = 0x014 ∧ hostReg off = .countHi) := by
  obtain h0 | h0 | h0 | h0 | h0 | h0 : off.toNat = 0x000 ∨ off.toNat = 0x004 ∨ off.toNat = 0x008 ∨
    off.toNat = 0x00C ∨ off.toNat = 0x010 ∨ off.toNat = 0x014 := by omega
  all_goals simp [hostReg, h0]

/-- R40: the ID constant of each variant. -/
theorem idWord_eq (v : Variant) : idWord v = match v with | .B => 0x01400C62 | .S => 0x01200A73 := by
  cases v <;> decide

/-! ### Accesses -/

theorem servedAccess_iff {off : BitVec 12} {width : AccessWidth} :
    servedAccess off width = true ↔ width = .bits32 ∧ off.toNat % 4 = 0 := by
  simp [servedAccess]

/-- A read leaves everything but the answer and the count of free values. -/
theorem hostRead_frame (off : BitVec 12) (s : State) :
    ∃ word draws, hostRead off s = { s with resp := .data word, draws := draws } := by
  unfold hostRead
  split
  · exact ⟨_, _, rfl⟩
  · exact ⟨_, s.draws, rfl⟩

/-- What a write that is served can be. -/
inductive WriteCase (off : BitVec 12) (val : BitVec 32) (s s' : State) : Prop
  | dropped (hbusy : s.busy = true) (heq : s' = { s with viol := true, resp := .ack })
  | command (hbusy : s.busy = false) (hoff : off.toNat = 0x004)
      (heq : s' = { s with pending := val, viol := false, busy := true, resp := .ack })
  | stored (hbusy : s.busy = false) (hlo : keyBase ≤ off.toNat) (hhi : off.toNat < digestBase)
      (heq : s' = { s with mem := Memory.storeWord s.mem off.toNat val, resp := .ack })
  | ignored (hbusy : s.busy = false) (hoff : off.toNat < keyBase ∨ digestBase ≤ off.toNat)
      (hcmd : off.toNat ≠ 0x004) (heq : s' = { s with resp := .ack })

/-- Every served write is one of the cases. -/
theorem hostWrite_cases {off : BitVec 12} (hal : off.toNat % 4 = 0) (val : BitVec 32) (s : State) :
    WriteCase off val s (hostWrite off val s) := by
  unfold hostWrite
  split
  · next hb => exact .dropped hb rfl
  · next hb =>
    have hb : s.busy = false := by simpa using hb
    rcases Nat.lt_or_ge off.toNat 0x018 with hlow | hhigh
    · rcases hostReg_low hlow hal with ⟨ho, hr⟩ | ⟨ho, hr⟩ | ⟨ho, hr⟩ | ⟨ho, hr⟩ | ⟨ho, hr⟩ | ⟨ho, hr⟩ <;> rw [hr]
      · exact .ignored hb (.inl (by rw [ho]; decide)) (by omega) rfl
      · exact .command hb ho rfl
      all_goals exact .ignored hb (.inl (by rw [ho]; decide)) (by omega) rfl
    · rcases Nat.lt_or_ge off.toNat keyBase with h | hkey
      · rw [hostReg_reserved (.inl ⟨hhigh, h⟩)]
        exact .ignored hb (.inl h) (by omega) rfl
      rcases Nat.lt_or_ge off.toNat digestBase with hdig | hdig
      · rcases Nat.lt_or_ge off.toNat dinBase with h | hdin
        · rw [hostReg_key hkey h]
          exact .stored hb hkey hdig rfl
        rcases Nat.lt_or_ge off.toNat refBase with h | href
        · rw [hostReg_din hdin h]
          exact .stored hb hkey hdig rfl
        · rw [hostReg_ref href hdig]
          exact .stored hb hkey hdig rfl
      · rcases Nat.lt_or_ge off.toNat 0x180 with h | h
        · rw [hostReg_digest hdig h]
          exact .ignored hb (.inr hdig) (by omega) rfl
        · rw [hostReg_reserved (.inr h)]
          exact .ignored hb (.inr hdig) (by omega) rfl

end Sys2Proof.Machine
end

