-- ==== Sys2Proof/Laws/State.lean ====
section
/-! SUPPORT. Laws/State: what each update of the state leaves and what it writes, field by field, so that no proof
unfolds a record update. All by `rfl`. -/

namespace Sys2Proof.Machine

variable (s : State)

/-! ### abortState -/

@[simp] theorem abortState_variant : (abortState s).variant = s.variant := rfl
@[simp] theorem abortState_dp_h : (abortState s).dp.h = Vector.replicate 8 0 := rfl
@[simp] theorem abortState_dp_buf : (abortState s).dp.buf = Vector.replicate s.variant.bb 0 := rfl
@[simp] theorem abortState_dp_vregs : (abortState s).dp.vregs = s.dp.vregs := rfl
@[simp] theorem abortState_dp_seq : (abortState s).dp.seq = s.dp.seq := rfl
@[simp] theorem abortState_phase : (abortState s).phase = .none := rfl
@[simp] theorem abortState_t : (abortState s).t = 0 := rfl
@[simp] theorem abortState_nn : (abortState s).nn = 0 := rfl
@[simp] theorem abortState_dig : (abortState s).dig = Vector.replicate 64 0 := rfl
@[simp] theorem abortState_eq : (abortState s).eq = false := rfl
@[simp] theorem abortState_cmpv : (abortState s).cmpv = false := rfl
@[simp] theorem abortState_err : (abortState s).err = .none := rfl
@[simp] theorem abortState_busy : (abortState s).busy = s.busy := rfl
@[simp] theorem abortState_viol : (abortState s).viol = s.viol := rfl
@[simp] theorem abortState_pending : (abortState s).pending = s.pending := rfl
@[simp] theorem abortState_mem : (abortState s).mem = s.mem := rfl
@[simp] theorem abortState_bus : (abortState s).bus = s.bus := rfl
@[simp] theorem abortState_resp : (abortState s).resp = s.resp := rfl
@[simp] theorem abortState_draws : (abortState s).draws = s.draws := rfl

/-! ### fail -/

@[simp] theorem fail_variant (code : ErrCode) : (fail code s).variant = s.variant := rfl
@[simp] theorem fail_dp_h (code : ErrCode) : (fail code s).dp.h = Vector.replicate 8 0 := rfl
@[simp] theorem fail_dp_buf (code : ErrCode) : (fail code s).dp.buf = Vector.replicate s.variant.bb 0 := rfl
@[simp] theorem fail_dp_vregs (code : ErrCode) : (fail code s).dp.vregs = s.dp.vregs := rfl
@[simp] theorem fail_dp_seq (code : ErrCode) : (fail code s).dp.seq = s.dp.seq := rfl
@[simp] theorem fail_phase (code : ErrCode) : (fail code s).phase = .failed := rfl
@[simp] theorem fail_t (code : ErrCode) : (fail code s).t = s.t := rfl
@[simp] theorem fail_nn (code : ErrCode) : (fail code s).nn = 0 := rfl
@[simp] theorem fail_dig (code : ErrCode) : (fail code s).dig = Vector.replicate 64 0 := rfl
@[simp] theorem fail_eq (code : ErrCode) : (fail code s).eq = false := rfl
@[simp] theorem fail_cmpv (code : ErrCode) : (fail code s).cmpv = false := rfl
@[simp] theorem fail_err (code : ErrCode) : (fail code s).err = if s.err = .none then code else s.err := rfl
@[simp] theorem fail_busy (code : ErrCode) : (fail code s).busy = s.busy := rfl
@[simp] theorem fail_viol (code : ErrCode) : (fail code s).viol = s.viol := rfl
@[simp] theorem fail_pending (code : ErrCode) : (fail code s).pending = s.pending := rfl
@[simp] theorem fail_mem (code : ErrCode) : (fail code s).mem = s.mem := rfl
@[simp] theorem fail_bus (code : ErrCode) : (fail code s).bus = s.bus := rfl
@[simp] theorem fail_resp (code : ErrCode) : (fail code s).resp = s.resp := rfl
@[simp] theorem fail_draws (code : ErrCode) : (fail code s).draws = s.draws := rfl

/-! ### setVregs -/

@[simp] theorem setVregs_variant (V : VFile s.variant) : (setVregs s V).variant = s.variant := rfl
@[simp] theorem setVregs_dp_h (V : VFile s.variant) : (setVregs s V).dp.h = s.dp.h := rfl
@[simp] theorem setVregs_dp_buf (V : VFile s.variant) : (setVregs s V).dp.buf = s.dp.buf := rfl
@[simp] theorem setVregs_dp_vregs (V : VFile s.variant) : (setVregs s V).dp.vregs = V := rfl
@[simp] theorem setVregs_dp_seq (V : VFile s.variant) : (setVregs s V).dp.seq = s.dp.seq := rfl
@[simp] theorem setVregs_phase (V : VFile s.variant) : (setVregs s V).phase = s.phase := rfl
@[simp] theorem setVregs_t (V : VFile s.variant) : (setVregs s V).t = s.t := rfl
@[simp] theorem setVregs_nn (V : VFile s.variant) : (setVregs s V).nn = s.nn := rfl
@[simp] theorem setVregs_dig (V : VFile s.variant) : (setVregs s V).dig = s.dig := rfl
@[simp] theorem setVregs_eq (V : VFile s.variant) : (setVregs s V).eq = s.eq := rfl
@[simp] theorem setVregs_cmpv (V : VFile s.variant) : (setVregs s V).cmpv = s.cmpv := rfl
@[simp] theorem setVregs_err (V : VFile s.variant) : (setVregs s V).err = s.err := rfl
@[simp] theorem setVregs_busy (V : VFile s.variant) : (setVregs s V).busy = s.busy := rfl
@[simp] theorem setVregs_viol (V : VFile s.variant) : (setVregs s V).viol = s.viol := rfl
@[simp] theorem setVregs_pending (V : VFile s.variant) : (setVregs s V).pending = s.pending := rfl
@[simp] theorem setVregs_mem (V : VFile s.variant) : (setVregs s V).mem = s.mem := rfl
@[simp] theorem setVregs_bus (V : VFile s.variant) : (setVregs s V).bus = s.bus := rfl
@[simp] theorem setVregs_resp (V : VFile s.variant) : (setVregs s V).resp = s.resp := rfl
@[simp] theorem setVregs_draws (V : VFile s.variant) : (setVregs s V).draws = s.draws := rfl

/-! ### clearBuf -/

@[simp] theorem clearBuf_variant : (clearBuf s).variant = s.variant := rfl
@[simp] theorem clearBuf_dp_h : (clearBuf s).dp.h = s.dp.h := rfl
@[simp] theorem clearBuf_dp_buf : (clearBuf s).dp.buf = Vector.replicate s.variant.bb 0 := rfl
@[simp] theorem clearBuf_dp_vregs : (clearBuf s).dp.vregs = s.dp.vregs := rfl
@[simp] theorem clearBuf_dp_seq : (clearBuf s).dp.seq = s.dp.seq := rfl
@[simp] theorem clearBuf_phase : (clearBuf s).phase = s.phase := rfl
@[simp] theorem clearBuf_t : (clearBuf s).t = s.t := rfl
@[simp] theorem clearBuf_nn : (clearBuf s).nn = s.nn := rfl
@[simp] theorem clearBuf_dig : (clearBuf s).dig = s.dig := rfl
@[simp] theorem clearBuf_eq : (clearBuf s).eq = s.eq := rfl
@[simp] theorem clearBuf_cmpv : (clearBuf s).cmpv = s.cmpv := rfl
@[simp] theorem clearBuf_err : (clearBuf s).err = s.err := rfl
@[simp] theorem clearBuf_busy : (clearBuf s).busy = s.busy := rfl
@[simp] theorem clearBuf_viol : (clearBuf s).viol = s.viol := rfl
@[simp] theorem clearBuf_pending : (clearBuf s).pending = s.pending := rfl
@[simp] theorem clearBuf_mem : (clearBuf s).mem = s.mem := rfl
@[simp] theorem clearBuf_bus : (clearBuf s).bus = s.bus := rfl
@[simp] theorem clearBuf_resp : (clearBuf s).resp = s.resp := rfl
@[simp] theorem clearBuf_draws : (clearBuf s).draws = s.draws := rfl

/-! ### newContext -/

@[simp] theorem newContext_variant (nn kk : BitVec 7) : (newContext nn kk s).variant = s.variant := rfl
@[simp] theorem newContext_dp_h (nn kk : BitVec 7) : (newContext nn kk s).dp.h = initialH s.variant nn kk := rfl
@[simp] theorem newContext_dp_buf (nn kk : BitVec 7) : (newContext nn kk s).dp.buf = keyBlock s kk.toNat := rfl
@[simp] theorem newContext_dp_vregs (nn kk : BitVec 7) : (newContext nn kk s).dp.vregs = s.dp.vregs := rfl
@[simp] theorem newContext_dp_seq (nn kk : BitVec 7) : (newContext nn kk s).dp.seq = s.dp.seq := rfl
@[simp] theorem newContext_phase (nn kk : BitVec 7) : (newContext nn kk s).phase = .fresh := rfl
@[simp] theorem newContext_t (nn kk : BitVec 7) :
    (newContext nn kk s).t = if kk = 0 then 0 else BitVec.ofNat 64 s.variant.bb := rfl
@[simp] theorem newContext_nn (nn kk : BitVec 7) : (newContext nn kk s).nn = nn := rfl
@[simp] theorem newContext_dig (nn kk : BitVec 7) : (newContext nn kk s).dig = s.dig := rfl
@[simp] theorem newContext_eq (nn kk : BitVec 7) : (newContext nn kk s).eq = s.eq := rfl
@[simp] theorem newContext_cmpv (nn kk : BitVec 7) : (newContext nn kk s).cmpv = s.cmpv := rfl
@[simp] theorem newContext_err (nn kk : BitVec 7) : (newContext nn kk s).err = s.err := rfl
@[simp] theorem newContext_busy (nn kk : BitVec 7) : (newContext nn kk s).busy = s.busy := rfl
@[simp] theorem newContext_viol (nn kk : BitVec 7) : (newContext nn kk s).viol = s.viol := rfl
@[simp] theorem newContext_pending (nn kk : BitVec 7) : (newContext nn kk s).pending = s.pending := rfl
@[simp] theorem newContext_mem (nn kk : BitVec 7) : (newContext nn kk s).mem = s.mem := rfl
@[simp] theorem newContext_bus (nn kk : BitVec 7) : (newContext nn kk s).bus = s.bus := rfl
@[simp] theorem newContext_resp (nn kk : BitVec 7) : (newContext nn kk s).resp = s.resp := rfl
@[simp] theorem newContext_draws (nn kk : BitVec 7) : (newContext nn kk s).draws = s.draws := rfl

/-! ### storeByte -/

@[simp] theorem storeByte_variant (b : Byte) : (storeByte b s).variant = s.variant := rfl
@[simp] theorem storeByte_dp_h (b : Byte) : (storeByte b s).dp.h = s.dp.h := rfl
@[simp] theorem storeByte_dp_buf (b : Byte) :
    (storeByte b s).dp.buf = s.dp.buf.set (s.t.toNat % s.variant.bb) b (Nat.mod_lt _ s.variant.bb_pos) := rfl
@[simp] theorem storeByte_dp_vregs (b : Byte) : (storeByte b s).dp.vregs = s.dp.vregs := rfl
@[simp] theorem storeByte_dp_seq (b : Byte) : (storeByte b s).dp.seq = s.dp.seq := rfl
@[simp] theorem storeByte_phase (b : Byte) : (storeByte b s).phase = .absorbing := rfl
@[simp] theorem storeByte_t (b : Byte) : (storeByte b s).t = s.t + 1 := rfl
@[simp] theorem storeByte_nn (b : Byte) : (storeByte b s).nn = s.nn := rfl
@[simp] theorem storeByte_dig (b : Byte) : (storeByte b s).dig = s.dig := rfl
@[simp] theorem storeByte_eq (b : Byte) : (storeByte b s).eq = s.eq := rfl
@[simp] theorem storeByte_cmpv (b : Byte) : (storeByte b s).cmpv = s.cmpv := rfl
@[simp] theorem storeByte_err (b : Byte) : (storeByte b s).err = s.err := rfl
@[simp] theorem storeByte_busy (b : Byte) : (storeByte b s).busy = s.busy := rfl
@[simp] theorem storeByte_viol (b : Byte) : (storeByte b s).viol = s.viol := rfl
@[simp] theorem storeByte_pending (b : Byte) : (storeByte b s).pending = s.pending := rfl
@[simp] theorem storeByte_mem (b : Byte) : (storeByte b s).mem = s.mem := rfl
@[simp] theorem storeByte_bus (b : Byte) : (storeByte b s).bus = s.bus := rfl
@[simp] theorem storeByte_resp (b : Byte) : (storeByte b s).resp = s.resp := rfl
@[simp] theorem storeByte_draws (b : Byte) : (storeByte b s).draws = s.draws := rfl

/-! ### padBuf -/

@[simp] theorem padBuf_variant : (padBuf s).variant = s.variant := rfl
@[simp] theorem padBuf_dp_h : (padBuf s).dp.h = s.dp.h := rfl
@[simp] theorem padBuf_dp_buf :
    (padBuf s).dp.buf = Vector.ofFn fun i => if i.val < fill s.variant s.t then bufByte s.dp.buf i.val else 0 := rfl
@[simp] theorem padBuf_dp_vregs : (padBuf s).dp.vregs = s.dp.vregs := rfl
@[simp] theorem padBuf_dp_seq : (padBuf s).dp.seq = s.dp.seq := rfl
@[simp] theorem padBuf_phase : (padBuf s).phase = s.phase := rfl
@[simp] theorem padBuf_t : (padBuf s).t = s.t := rfl
@[simp] theorem padBuf_nn : (padBuf s).nn = s.nn := rfl
@[simp] theorem padBuf_dig : (padBuf s).dig = s.dig := rfl
@[simp] theorem padBuf_eq : (padBuf s).eq = s.eq := rfl
@[simp] theorem padBuf_cmpv : (padBuf s).cmpv = s.cmpv := rfl
@[simp] theorem padBuf_err : (padBuf s).err = s.err := rfl
@[simp] theorem padBuf_busy : (padBuf s).busy = s.busy := rfl
@[simp] theorem padBuf_viol : (padBuf s).viol = s.viol := rfl
@[simp] theorem padBuf_pending : (padBuf s).pending = s.pending := rfl
@[simp] theorem padBuf_mem : (padBuf s).mem = s.mem := rfl
@[simp] theorem padBuf_bus : (padBuf s).bus = s.bus := rfl
@[simp] theorem padBuf_resp : (padBuf s).resp = s.resp := rfl
@[simp] theorem padBuf_draws : (padBuf s).draws = s.draws := rfl

/-! ### startCommand -/

@[simp] theorem startCommand_variant (cw : BitVec 32) : (startCommand cw s).variant = s.variant := rfl
@[simp] theorem startCommand_dp_h (cw : BitVec 32) : (startCommand cw s).dp.h = s.dp.h := rfl
@[simp] theorem startCommand_dp_buf (cw : BitVec 32) : (startCommand cw s).dp.buf = s.dp.buf := rfl
@[simp] theorem startCommand_dp_vregs (cw : BitVec 32) : (startCommand cw s).dp.vregs = s.dp.vregs := rfl
@[simp] theorem startCommand_dp_seq (cw : BitVec 32) : (startCommand cw s).dp.seq = s.dp.seq := rfl
@[simp] theorem startCommand_phase (cw : BitVec 32) : (startCommand cw s).phase = s.phase := rfl
@[simp] theorem startCommand_t (cw : BitVec 32) : (startCommand cw s).t = s.t := rfl
@[simp] theorem startCommand_nn (cw : BitVec 32) : (startCommand cw s).nn = s.nn := rfl
@[simp] theorem startCommand_dig (cw : BitVec 32) : (startCommand cw s).dig = s.dig := rfl
@[simp] theorem startCommand_eq (cw : BitVec 32) : (startCommand cw s).eq = s.eq := rfl
@[simp] theorem startCommand_cmpv (cw : BitVec 32) : (startCommand cw s).cmpv = s.cmpv := rfl
@[simp] theorem startCommand_err (cw : BitVec 32) : (startCommand cw s).err = s.err := rfl
@[simp] theorem startCommand_busy (cw : BitVec 32) : (startCommand cw s).busy = true := rfl
@[simp] theorem startCommand_viol (cw : BitVec 32) : (startCommand cw s).viol = false := rfl
@[simp] theorem startCommand_pending (cw : BitVec 32) : (startCommand cw s).pending = cw := rfl
@[simp] theorem startCommand_mem (cw : BitVec 32) : (startCommand cw s).mem = s.mem := rfl
@[simp] theorem startCommand_bus (cw : BitVec 32) : (startCommand cw s).bus = s.bus := rfl
@[simp] theorem startCommand_resp (cw : BitVec 32) : (startCommand cw s).resp = s.resp := rfl
@[simp] theorem startCommand_draws (cw : BitVec 32) : (startCommand cw s).draws = s.draws := rfl

/-! ### busError -/

@[simp] theorem busError_variant : (busError s).variant = s.variant := rfl
@[simp] theorem busError_dp_h : (busError s).dp.h = s.dp.h := rfl
@[simp] theorem busError_dp_buf : (busError s).dp.buf = s.dp.buf := rfl
@[simp] theorem busError_dp_vregs : (busError s).dp.vregs = s.dp.vregs := rfl
@[simp] theorem busError_dp_seq : (busError s).dp.seq = s.dp.seq := rfl
@[simp] theorem busError_phase : (busError s).phase = s.phase := rfl
@[simp] theorem busError_t : (busError s).t = s.t := rfl
@[simp] theorem busError_nn : (busError s).nn = s.nn := rfl
@[simp] theorem busError_dig : (busError s).dig = s.dig := rfl
@[simp] theorem busError_eq : (busError s).eq = s.eq := rfl
@[simp] theorem busError_cmpv : (busError s).cmpv = s.cmpv := rfl
@[simp] theorem busError_err : (busError s).err = s.err := rfl
@[simp] theorem busError_busy : (busError s).busy = s.busy := rfl
@[simp] theorem busError_viol : (busError s).viol = s.viol := rfl
@[simp] theorem busError_pending : (busError s).pending = s.pending := rfl
@[simp] theorem busError_mem : (busError s).mem = s.mem := rfl
@[simp] theorem busError_bus : (busError s).bus = s.bus := rfl
@[simp] theorem busError_resp : (busError s).resp = .error := rfl
@[simp] theorem busError_draws : (busError s).draws = s.draws := rfl

/-! ### clearIssue -/

@[simp] theorem clearIssue_variant : (clearIssue s).variant = s.variant := rfl
@[simp] theorem clearIssue_dp_h : (clearIssue s).dp.h = s.dp.h := rfl
@[simp] theorem clearIssue_dp_buf : (clearIssue s).dp.buf = s.dp.buf := rfl
@[simp] theorem clearIssue_dp_vregs : (clearIssue s).dp.vregs = s.dp.vregs := rfl
@[simp] theorem clearIssue_dp_seq : (clearIssue s).dp.seq = { s.dp.seq with issue := none } := rfl
@[simp] theorem clearIssue_phase : (clearIssue s).phase = s.phase := rfl
@[simp] theorem clearIssue_t : (clearIssue s).t = s.t := rfl
@[simp] theorem clearIssue_nn : (clearIssue s).nn = s.nn := rfl
@[simp] theorem clearIssue_dig : (clearIssue s).dig = s.dig := rfl
@[simp] theorem clearIssue_eq : (clearIssue s).eq = s.eq := rfl
@[simp] theorem clearIssue_cmpv : (clearIssue s).cmpv = s.cmpv := rfl
@[simp] theorem clearIssue_err : (clearIssue s).err = s.err := rfl
@[simp] theorem clearIssue_busy : (clearIssue s).busy = s.busy := rfl
@[simp] theorem clearIssue_viol : (clearIssue s).viol = s.viol := rfl
@[simp] theorem clearIssue_pending : (clearIssue s).pending = s.pending := rfl
@[simp] theorem clearIssue_mem : (clearIssue s).mem = s.mem := rfl
@[simp] theorem clearIssue_bus : (clearIssue s).bus = s.bus := rfl
@[simp] theorem clearIssue_resp : (clearIssue s).resp = s.resp := rfl
@[simp] theorem clearIssue_draws : (clearIssue s).draws = s.draws := rfl

/-! ### popEvent -/

@[simp] theorem popEvent_variant : (popEvent s).variant = s.variant := rfl
@[simp] theorem popEvent_dp_h : (popEvent s).dp.h = s.dp.h := rfl
@[simp] theorem popEvent_dp_buf : (popEvent s).dp.buf = s.dp.buf := rfl
@[simp] theorem popEvent_dp_vregs : (popEvent s).dp.vregs = s.dp.vregs := rfl
@[simp] theorem popEvent_dp_seq : (popEvent s).dp.seq = s.dp.seq := rfl
@[simp] theorem popEvent_phase : (popEvent s).phase = s.phase := rfl
@[simp] theorem popEvent_t : (popEvent s).t = s.t := rfl
@[simp] theorem popEvent_nn : (popEvent s).nn = s.nn := rfl
@[simp] theorem popEvent_dig : (popEvent s).dig = s.dig := rfl
@[simp] theorem popEvent_eq : (popEvent s).eq = s.eq := rfl
@[simp] theorem popEvent_cmpv : (popEvent s).cmpv = s.cmpv := rfl
@[simp] theorem popEvent_err : (popEvent s).err = s.err := rfl
@[simp] theorem popEvent_busy : (popEvent s).busy = s.busy := rfl
@[simp] theorem popEvent_viol : (popEvent s).viol = s.viol := rfl
@[simp] theorem popEvent_pending : (popEvent s).pending = s.pending := rfl
@[simp] theorem popEvent_mem : (popEvent s).mem = s.mem := rfl
@[simp] theorem popEvent_bus : (popEvent s).bus = s.bus.tail := rfl
@[simp] theorem popEvent_resp : (popEvent s).resp = s.resp := rfl
@[simp] theorem popEvent_draws : (popEvent s).draws = s.draws := rfl

/-! ### compressState -/

theorem compressState_dp (last : Bool) : (compressState last s).dp = compressDatapath s.t last s.dp := rfl
@[simp] theorem compressState_variant (last : Bool) : (compressState last s).variant = s.variant := rfl
@[simp] theorem compressState_phase (last : Bool) : (compressState last s).phase = s.phase := rfl
@[simp] theorem compressState_t (last : Bool) : (compressState last s).t = s.t := rfl
@[simp] theorem compressState_nn (last : Bool) : (compressState last s).nn = s.nn := rfl
@[simp] theorem compressState_dig (last : Bool) : (compressState last s).dig = s.dig := rfl
@[simp] theorem compressState_eq (last : Bool) : (compressState last s).eq = s.eq := rfl
@[simp] theorem compressState_cmpv (last : Bool) : (compressState last s).cmpv = s.cmpv := rfl
@[simp] theorem compressState_err (last : Bool) : (compressState last s).err = s.err := rfl
@[simp] theorem compressState_busy (last : Bool) : (compressState last s).busy = s.busy := rfl
@[simp] theorem compressState_viol (last : Bool) : (compressState last s).viol = s.viol := rfl
@[simp] theorem compressState_pending (last : Bool) : (compressState last s).pending = s.pending := rfl
@[simp] theorem compressState_mem (last : Bool) : (compressState last s).mem = s.mem := rfl
@[simp] theorem compressState_bus (last : Bool) : (compressState last s).bus = s.bus := rfl
@[simp] theorem compressState_resp (last : Bool) : (compressState last s).resp = s.resp := rfl
@[simp] theorem compressState_draws (last : Bool) : (compressState last s).draws = s.draws := rfl

/-! ### reset -/

@[simp] theorem applyReset_variant : (applyReset s).variant = s.variant := rfl
@[simp] theorem applyReset_bus : (applyReset s).bus = s.bus := rfl
@[simp] theorem applyReset_draws : (applyReset s).draws = s.draws := rfl
@[simp] theorem applyReset_mem : (applyReset s).mem = [] := rfl
@[simp] theorem applyReset_phase : (applyReset s).phase = .none := rfl
@[simp] theorem applyReset_busy : (applyReset s).busy = false := rfl
@[simp] theorem applyReset_viol : (applyReset s).viol = false := rfl
@[simp] theorem applyReset_seq : (applyReset s).dp.seq = Seq.idle := rfl

end Sys2Proof.Machine
end

