-- ==== Sys2Proof/Laws/Context.lean ====
section
/-! SUPPORT. Laws/Context: the fill of the block buffer, and what absorbing a string of bytes can do. -/

namespace Sys2Proof.Machine

/-! ### Fill (R26) -/

theorem fill_le (v : Variant) (t : BitVec 64) : fill v t ≤ v.bb := by
  unfold fill
  have := Nat.mod_lt (t.toNat - 1) v.bb_pos
  split <;> omega

theorem fill_zero (v : Variant) : fill v 0 = 0 := rfl

theorem fill_pos (v : Variant) {t : BitVec 64} (h : t ≠ 0) : fill v t = (t.toNat - 1) % v.bb + 1 :=
  if_neg h

theorem toNat_pos_of_ne_zero {t : BitVec 64} (h : t ≠ 0) : 0 < t.toNat := by
  rcases Nat.eq_zero_or_pos t.toNat with h0 | h0
  · exact absurd (BitVec.eq_of_toNat_eq (by simpa using h0)) h
  · exact h0

/-- Below a full block the next byte goes to position `fill`. -/
theorem mod_eq_fill (v : Variant) {t : BitVec 64} (h : fill v t < v.bb) : t.toNat % v.bb = fill v t := by
  by_cases ht : t = 0
  · subst ht
    exact Nat.zero_mod _
  · have hpos := toNat_pos_of_ne_zero ht
    rw [fill_pos v ht] at h ⊢
    obtain ⟨k, hk⟩ : ∃ k, t.toNat = k + 1 := ⟨t.toNat - 1, by omega⟩
    rw [hk, Nat.add_sub_cancel] at h ⊢
    rw [Nat.add_mod, Nat.mod_eq_of_lt (a := 1) (by omega), Nat.mod_eq_of_lt h]

/-- A full block leaves the counter at a multiple of the block size. -/
theorem mod_eq_zero_of_full (v : Variant) {t : BitVec 64} (h : fill v t = v.bb) : t.toNat % v.bb = 0 := by
  have hb := v.bb_pos
  by_cases ht : t = 0
  · subst ht
    exact Nat.zero_mod _
  · have hpos := toNat_pos_of_ne_zero ht
    rw [fill_pos v ht] at h
    obtain ⟨k, hk⟩ : ∃ k, t.toNat = k + 1 := ⟨t.toNat - 1, by omega⟩
    rw [hk, Nat.add_sub_cancel] at h
    rw [hk, Nat.add_mod, show k % v.bb = v.bb - 1 by omega]
    by_cases h1 : v.bb = 1
    · rw [h1]
    · rw [Nat.mod_eq_of_lt (a := 1) (by omega), show v.bb - 1 + 1 = v.bb by omega, Nat.mod_self]

/-- One more byte, with the counter below its limit, adds one to the fill, after emptying a full block. -/
theorem fill_succ (v : Variant) {t : BitVec 64} (h : t ≠ BitVec.allOnes 64) :
    fill v (t + 1) = t.toNat % v.bb + 1 := by
  have hlt : t.toNat + 1 < 2 ^ 64 := by
    have := t.isLt
    rcases Nat.lt_or_ge (t.toNat + 1) (2 ^ 64) with h1 | h1
    · exact h1
    · exact absurd (BitVec.eq_of_toNat_eq (by simp; omega)) h
  have hnat : (t + 1).toNat = t.toNat + 1 := by
    rw [BitVec.toNat_add]
    simp
    omega
  have hne : t + 1 ≠ 0 := by
    intro h0
    have := congrArg BitVec.toNat h0
    rw [hnat] at this
    simp at this
  rw [fill_pos v hne, hnat, Nat.add_sub_cancel]

/-! ### Absorbing -/

@[simp] theorem absorbBytes_nil (s : State) : absorbBytes [] s = s := rfl

theorem absorbBytes_cons (b : Byte) (bs : List Byte) (s : State) :
    absorbBytes (b :: bs) s =
      if s.t = BitVec.allOnes 64 then fail .overflow s else absorbBytes bs (storeByte b (flushFull s)) := rfl

theorem flushFull_of_full {s : State} (h : fill s.variant s.t = s.variant.bb) :
    flushFull s = clearBuf (compressState false s) := if_pos h

theorem flushFull_of_not_full {s : State} (h : fill s.variant s.t ≠ s.variant.bb) : flushFull s = s := if_neg h

theorem fail_fail (c c' : ErrCode) (s : State) (hc : c ≠ .none) : fail c' (fail c s) = fail c s := by
  unfold fail
  cases h : s.err <;> simp [hc]

/-- Absorbing a string in two parts is absorbing it whole (R179). -/
theorem absorbBytes_append (xs ys : List Byte) (s : State) :
    absorbBytes (xs ++ ys) s = absorbBytes ys (absorbBytes xs s) := by
  induction xs generalizing s with
  | nil => rfl
  | cons b xs ih =>
    rw [List.cons_append, absorbBytes_cons, absorbBytes_cons]
    split
    · next h =>
      cases ys with
      | nil => rfl
      | cons y ys =>
        rw [absorbBytes_cons, if_pos (by simpa using h), fail_fail _ _ _ (by decide)]
    · exact ih _

/-- What absorbing leaves alone, whatever it does. -/
structure HostSideKept (s s' : State) : Prop where
  mem : s'.mem = s.mem
  busy : s'.busy = s.busy
  viol : s'.viol = s.viol
  pending : s'.pending = s.pending
  bus : s'.bus = s.bus
  resp : s'.resp = s.resp
  draws : s'.draws = s.draws
  variant : s'.variant = s.variant

theorem HostSideKept.refl (s : State) : HostSideKept s s := ⟨rfl, rfl, rfl, rfl, rfl, rfl, rfl, rfl⟩

theorem HostSideKept.trans {s s' s'' : State} (h : HostSideKept s s') (h' : HostSideKept s' s'') :
    HostSideKept s s'' :=
  ⟨h'.mem.trans h.mem, h'.busy.trans h.busy, h'.viol.trans h.viol, h'.pending.trans h.pending, h'.bus.trans h.bus,
    h'.resp.trans h.resp, h'.draws.trans h.draws, h'.variant.trans h.variant⟩

theorem flushFull_kept (s : State) : HostSideKept s (flushFull s) := by
  unfold flushFull
  split
  · exact ⟨rfl, rfl, rfl, rfl, rfl, rfl, rfl, rfl⟩
  · exact .refl s

theorem storeByte_kept (b : Byte) (s : State) : HostSideKept s (storeByte b s) :=
  ⟨rfl, rfl, rfl, rfl, rfl, rfl, rfl, rfl⟩

theorem absorbBytes_kept (bs : List Byte) (s : State) : HostSideKept s (absorbBytes bs s) := by
  induction bs generalizing s with
  | nil => exact .refl s
  | cons b bs ih =>
    rw [absorbBytes_cons]
    split
    · exact ⟨rfl, rfl, rfl, rfl, rfl, rfl, rfl, rfl⟩
    · exact (flushFull_kept s).trans
        ((storeByte_kept b (flushFull s)).trans (ih (storeByte b (flushFull s))))

end Sys2Proof.Machine
end

