-- ==== Sys2Proof/Laws/Words.lean ====
section
/-! SUPPORT. Laws/Words: lanes, vector registers, rotation and byte order. -/

namespace Sys2Proof.Machine

variable {v : Variant}

/-! ### Lanes and vector registers -/

theorem lanes_ext {x y : Lanes v} (h : ∀ j, x.get j = y.get j) : x = y := by
  obtain ⟨x0, x1, x2, x3⟩ := x
  obtain ⟨y0, y1, y2, y3⟩ := y
  have h0 := h 0
  have h1 := h 1
  have h2 := h 2
  have h3 := h 3
  simp only [Lanes.get] at h0 h1 h2 h3
  subst h0 h1 h2 h3
  rfl

@[simp] theorem lanes_get_ofFn (f : Fin 4 → Word v) (j : Fin 4) : (Lanes.ofFn f).get j = f j := by
  match j with
  | 0 => rfl
  | 1 => rfl
  | 2 => rfl
  | 3 => rfl

@[simp] theorem lanes_ofFn_get (x : Lanes v) : Lanes.ofFn x.get = x := rfl

@[simp] theorem vfile_get_set_same (V : VFile v) (r : VReg) (x : Lanes v) : (V.set r x).get r = x := by
  cases r <;> rfl

theorem vfile_get_set_of_ne (V : VFile v) {r q : VReg} (x : Lanes v) (h : q ≠ r) :
    (V.set r x).get q = V.get q := by
  cases r <;> cases q <;> first | rfl | exact absurd rfl h

theorem vfile_ext {V W : VFile v} (h : ∀ r, V.get r = W.get r) : V = W := by
  obtain ⟨a, b, c, d, x, y⟩ := V
  obtain ⟨a', b', c', d', x', y'⟩ := W
  have ha := h .VA
  have hb := h .VB
  have hc := h .VC
  have hd := h .VD
  have hx := h .VX
  have hy := h .VY
  simp only [VFile.get] at ha hb hc hd hx hy
  subst ha hb hc hd hx hy
  rfl

/-! ### Rotation -/

@[simp] theorem rotr_zero (x : Word v) : rotr x 0 = x := rfl

theorem rotr_eq_rotateRight (x : Word v) {n : Nat} (hn : n < v.w) : rotr x n = x.rotateRight n := by
  rw [BitVec.rotateRight_def, Nat.mod_eq_of_lt hn]
  unfold rotr
  split
  · subst n
    simp
  · rfl

/-! ### Byte order -/

theorem leNat_lt (bs : List Byte) : leNat bs < 256 ^ bs.length := by
  induction bs with
  | nil => simp [leNat]
  | cons b bs ih =>
    have hb := b.isLt
    simp only [leNat, List.length_cons, Nat.pow_succ]
    omega

theorem byteOf_toNat {n : Nat} (x : BitVec n) (k : Nat) : (byteOf x k).toNat = (x.toNat >>> (8 * k)) % 256 := by
  simp [byteOf]

end Sys2Proof.Machine
end

