-- ==== Sys2Proof/Laws/PerInstr.lean ====
section
/-! SUPPORT. Laws/PerInstr: one family of statements, a lemma per instruction: the encoding of an instruction fits the
row of the match/mask tables (R93, R101) that carries its mnemonic. -/

namespace Sys2Proof.Laws.FitsItsRow

/-- The instruction's code word is of the kind of its table row and fits it. -/
def Statement (i : Instr) : Prop :=
  (∃ cw, encode i = .cmd32 cw ∧ ∃ row ∈ commandTable, row.mnemonic = i.mnemonic ∧ row.fits cw = true) ∨
  (∃ u, encode i = .uop16 u ∧ ∃ row ∈ microOpTable, row.mnemonic = i.mnemonic ∧ row.fits u = true)

theorem init (nn kk : BitVec 7) : Statement (.init nn kk) := by
  refine .inl ⟨_, rfl, { mnemonic := "INIT", pattern := 0x10000000, mask := 0xFFFF8080 }, by decide, rfl, ?_⟩
  refine beq_iff_eq.mpr (BitVec.eq_of_getLsbD_eq fun i hi => ?_)
  interval_cases i <;> simp

theorem update (len : BitVec 8) : Statement (.update len) := by
  refine .inl ⟨_, rfl, { mnemonic := "UPDATE", pattern := 0x20000000, mask := 0xFFFFFF00 }, by decide, rfl, ?_⟩
  refine beq_iff_eq.mpr (BitVec.eq_of_getLsbD_eq fun i hi => ?_)
  interval_cases i <;> simp

theorem final : Statement .final :=
  .inl ⟨_, rfl, { mnemonic := "FINAL", pattern := 0x30000000, mask := 0xFFFFFFFF }, by decide, rfl, rfl⟩

theorem compare (len : BitVec 8) : Statement (.compare len) := by
  refine .inl ⟨_, rfl, { mnemonic := "COMPARE", pattern := 0x40000000, mask := 0xFFFFFF00 }, by decide, rfl, ?_⟩
  refine beq_iff_eq.mpr (BitVec.eq_of_getLsbD_eq fun i hi => ?_)
  interval_cases i <;> simp

theorem abort : Statement .abort :=
  .inl ⟨_, rfl, { mnemonic := "ABORT", pattern := 0x50000000, mask := 0xFFFFFFFF }, by decide, rfl, rfl⟩

theorem vadd (dst src1 src2 : VReg) : Statement (.vadd dst src1 src2) := by
  refine .inr ⟨_, rfl, { mnemonic := "VADD", pattern := 0x1000, mask := 0xF007 }, by decide, rfl, ?_⟩
  cases dst <;> cases src1 <;> cases src2 <;> rfl

theorem vxor (dst src1 src2 : VReg) : Statement (.vxor dst src1 src2) := by
  refine .inr ⟨_, rfl, { mnemonic := "VXOR", pattern := 0x2000, mask := 0xF007 }, by decide, rfl, ?_⟩
  cases dst <;> cases src1 <;> cases src2 <;> rfl

theorem vrotr (dst src1 : VReg) (amt : BitVec 6) : Statement (.vrotr dst src1 amt) := by
  refine .inr ⟨_, rfl, { mnemonic := "VROTR", pattern := 0x3000, mask := 0xF000 }, by decide, rfl, ?_⟩
  refine beq_iff_eq.mpr (BitVec.eq_of_getLsbD_eq fun i hi => ?_)
  interval_cases i <;> simp

theorem vshl (dst src1 : VReg) (k : BitVec 2) : Statement (.vshl dst src1 k) := by
  refine .inr ⟨_, rfl, { mnemonic := "VSHL", pattern := 0x4000, mask := 0xF03C }, by decide, rfl, ?_⟩
  refine beq_iff_eq.mpr (BitVec.eq_of_getLsbD_eq fun i hi => ?_)
  interval_cases i <;> simp

theorem vshr (dst src1 : VReg) (k : BitVec 2) : Statement (.vshr dst src1 k) := by
  refine .inr ⟨_, rfl, { mnemonic := "VSHR", pattern := 0x4004, mask := 0xF03C }, by decide, rfl, ?_⟩
  refine beq_iff_eq.mpr (BitVec.eq_of_getLsbD_eq fun i hi => ?_)
  interval_cases i <;> simp

end Sys2Proof.Laws.FitsItsRow
end

