-- ==== Sys2Proof/Laws/Sequencer.lean ====
section
/-! SUPPORT. Laws/Sequencer: what one step of the compression sequencer does, and what a run of steps within a round
does, as a run of the round's items over the vector registers. -/

namespace Sys2Proof.Machine

variable {v : Variant}

/-- R151: the micro-ops the ROM words of G stand for. -/
def gOps (v : Variant) : List Instr :=
  [.vadd .VA .VA .VB, .vadd .VA .VA .VX, .vxor .VD .VD .VA, .vrotr .VD .VD (BitVec.ofNat 6 (rc1 v)),
   .vadd .VC .VC .VD, .vxor .VB .VB .VC, .vrotr .VB .VB (BitVec.ofNat 6 (rc2 v)),
   .vadd .VA .VA .VB, .vadd .VA .VA .VY, .vxor .VD .VD .VA, .vrotr .VD .VD (BitVec.ofNat 6 (rc3 v)),
   .vadd .VC .VC .VD, .vxor .VB .VB .VC, .vrotr .VB .VB (BitVec.ofNat 6 (rc4 v))]

theorem gMicroprogram_decodes (v : Variant) : (gMicroprogram v).map (decodeUop v) = (gOps v).map .ok := by
  cases v <;> decide

theorem shuffle_words_decode (v : Variant) :
    [0x4241#16, 0x4482#16, 0x46C3#16, 0x4245#16, 0x4486#16, 0x46C7#16].map (decodeUop v) =
      [.ok (.vshl .VB .VB 1), .ok (.vshl .VC .VC 2), .ok (.vshl .VD .VD 3), .ok (.vshr .VB .VB 1),
       .ok (.vshr .VC .VC 2), .ok (.vshr .VD .VD 3)] := by
  cases v <;> decide

theorem roundProgram_length (v : Variant) : (roundProgram v).length = 36 := by cases v <;> rfl

/-- What one item of a round does to the vector registers, with message words `m` in round `r`. -/
def itemRegs (m : Fin 16 → Word v) (r : Nat) (R : VFile v) : SeqItem → VFile v
  | .gatherColumn => gather m (sigma r) 0 R
  | .gatherDiagonal => gather m (sigma r) 8 R
  | .uop u =>
    match decodeUop v u with
    | .ok i => aluRun i R
    | .error _ => R

theorem runItem_eq (item : SeqItem) (d : Datapath v) (hi : d.seq.issue = none) :
    runItem item d = { d with vregs := itemRegs (leWord d.buf) d.seq.r.toNat d.vregs item } := by
  obtain ⟨h, buf, R, ⟨busy, r, pos, issue⟩⟩ := d
  subst hi
  cases item with
  | gatherColumn => rfl
  | gatherDiagonal => rfl
  | uop u =>
    simp only [runItem, aluIssue, itemRegs]
    cases decodeUop v u <;> rfl

theorem seqStep_eq (d : Datapath v) {p : Nat} (hp : p < 36) (hd : d.seq.pos.toNat = p) (hi : d.seq.issue = none) :
    seqStep d =
      { d with
        vregs := itemRegs (leWord d.buf) d.seq.r.toNat d.vregs
          ((roundProgram v)[p]'(by rw [roundProgram_length]; exact hp))
        seq := advance d.seq } := by
  have hl : p < (roundProgram v).length := by rw [roundProgram_length]; exact hp
  simp only [seqStep, hd, List.getElem?_eq_getElem hl, runItem_eq _ d hi]

theorem seqRun_add (n k : Nat) (d : Datapath v) : seqRun (n + k) d = seqRun k (seqRun n d) := by
  induction n generalizing d with
  | zero => simp [seqRun]
  | succ n ih => rw [Nat.succ_add, seqRun, ih, seqRun]

theorem advance_of_lt (q : Seq) (h : q.pos.toNat + 1 < 36) : advance q = { q with pos := q.pos + 1 } := by
  unfold advance roundLength
  rw [if_neg (by omega)]

theorem advance_at_end (q : Seq) (h : q.pos.toNat = 35) : advance q = { q with pos := 0, r := q.r + 1 } := by
  unfold advance roundLength
  rw [if_pos (by omega)]

/-- `n` steps that stay within a round run the next `n` items of the round's program. -/
theorem seqRun_within (n p : Nat) (hp : p + n < 36) (d : Datapath v) (hd : d.seq.pos = BitVec.ofNat 6 p)
    (hi : d.seq.issue = none) :
    seqRun n d =
      { d with
        vregs := (((roundProgram v).drop p).take n).foldl (itemRegs (leWord d.buf) d.seq.r.toNat) d.vregs
        seq := { d.seq with pos := BitVec.ofNat 6 (p + n) } } := by
  induction n generalizing p d with
  | zero =>
    obtain ⟨h, buf, R, ⟨busy, r, pos, issue⟩⟩ := d
    simp only at hd
    subst hd
    rfl
  | succ n ih =>
    have hl : p < (roundProgram v).length := by rw [roundProgram_length]; omega
    have hpos : d.seq.pos.toNat = p := by
      rw [hd, BitVec.toNat_ofNat]
      omega
    have hnext : d.seq.pos + 1 = BitVec.ofNat 6 (p + 1) := by
      rw [hd]
      apply BitVec.eq_of_toNat_eq
      simp
    have hrest := ih (p + 1) (by omega)
      { d with
        vregs := itemRegs (leWord d.buf) d.seq.r.toNat d.vregs (roundProgram v)[p]
        seq := { d.seq with pos := d.seq.pos + 1 } } hnext hi
    rw [seqRun, seqStep_eq d (by omega) hpos hi, advance_of_lt _ (by omega), hrest, List.drop_eq_getElem_cons hl,
      List.take_succ_cons, List.foldl_cons, show p + 1 + n = p + (n + 1) by omega]

/-- A whole round: 36 steps from position 0 run the whole program and lead to position 0 of the next round. -/
theorem seqRun_round (d : Datapath v) (hd : d.seq.pos = 0) (hi : d.seq.issue = none) :
    seqRun roundLength d =
      { d with
        vregs := (roundProgram v).foldl (itemRegs (leWord d.buf) d.seq.r.toNat) d.vregs
        seq := { d.seq with pos := 0, r := d.seq.r + 1 } } := by
  have hl : 35 < (roundProgram v).length := by rw [roundProgram_length]; omega
  have hall : roundProgram v = (roundProgram v).take 35 ++ [(roundProgram v)[35]] := by
    rw [List.take_append_getElem, List.take_of_length_le (by rw [roundProgram_length])]
  rw [show roundLength = 35 + 1 from rfl, seqRun_add, seqRun_within 35 0 (by omega) d hd hi]
  simp only [seqRun]
  have hlast := seqStep_eq (p := 35)
    { d with
      vregs := (((roundProgram v).drop 0).take 35).foldl (itemRegs (leWord d.buf) d.seq.r.toNat) d.vregs
      seq := { d.seq with pos := BitVec.ofNat 6 (0 + 35) } } (by omega) rfl hi
  rw [hlast, advance_at_end _ rfl]
  conv => rhs; rw [hall, List.foldl_append]
  rfl

end Sys2Proof.Machine
end

