-- ==== Sys2Proof/Laws/Step.lean ====
section
/-! SUPPORT. Laws/Step: what a step can be, once and for all. -/

namespace Sys2Proof.Machine

@[simp] theorem mapNext_next (f : State → State) (s : State) : mapNext f (.next s) = .next (f s) := rfl
@[simp] theorem mapNext_fault (f : State → State) (r : Fault) : mapNext f (.fault r) = .fault r := rfl
@[simp] theorem mapNext_refused (f : State → State) (r : Refusal) : mapNext f (.refused r) = .refused r := rfl

theorem mapNext_eq_next {f : State → State} {o : Outcome} {s' : State} (h : mapNext f o = .next s') :
    ∃ t, o = .next t ∧ s' = f t := by
  cases o with
  | next t => exact ⟨t, rfl, by simpa using h.symm⟩
  | fault r => simp at h
  | refused r => simp at h

theorem step_of_issue {s : State} {u : BitVec 16} (h : s.dp.seq.issue = some u) : step s = issueUop u s := by
  unfold step
  rw [h]

theorem step_of_noIssue {s : State} (h : NoIssue s) : step s = nextEvent s := by
  unfold step
  rw [show s.dp.seq.issue = none from h]

theorem nextEvent_nil {s : State} (h : s.bus = []) : nextEvent s = engineTurn s := by
  unfold nextEvent
  rw [h]

theorem popEvent_cons {s : State} {e : BusEvent} {rest : List BusEvent} (h : s.bus = e :: rest) :
    popEvent s = { s with bus := rest } := by
  unfold popEvent
  rw [h]
  rfl

theorem nextEvent_cons {s : State} {e : BusEvent} {rest : List BusEvent} (h : s.bus = e :: rest) :
    nextEvent s = takeEvent e { s with bus := rest } := by
  unfold nextEvent
  rw [h, ← popEvent_cons h]

theorem engineTurn_busy {s : State} (h : s.busy = true) : engineTurn s = complete s := if_pos h

theorem engineTurn_idle {s : State} (h : s.busy = false) : engineTurn s = .next s :=
  if_neg (by rw [h]; exact Bool.false_ne_true)

/-- A command word decodes to one of the five commands, never to a micro-op. -/
theorem decodeCmd_cases {cw : BitVec 32} {i : Instr} (h : decodeCmd cw = .ok i) :
    (∃ nn kk, i = .init nn kk) ∨ (∃ len, i = .update len) ∨ i = .final ∨ (∃ len, i = .compare len) ∨ i = .abort := by
  unfold decodeCmd at h
  split at h <;> (try split at h) <;> (try cases h) <;> simp

/-- Each of the five commands goes on, whatever the state. -/
theorem exec_command_next {cw : BitVec 32} {i : Instr} (h : decodeCmd cw = .ok i) (s : State) :
    ∃ t, exec i s = .next t := by
  rcases decodeCmd_cases h with ⟨nn, kk, rfl⟩ | ⟨len, rfl⟩ | rfl | ⟨len, rfl⟩ | rfl
  · simp only [exec, execInit]
    split <;> exact ⟨_, rfl⟩
  · simp only [exec, execUpdate]
    split
    · exact ⟨_, rfl⟩
    · exact ⟨_, rfl⟩
    · exact ⟨_, rfl⟩
    all_goals split <;> exact ⟨_, rfl⟩
  · simp only [exec, execFinal]
    split <;> exact ⟨_, rfl⟩
  · simp only [exec, execCompare]
    split <;> exact ⟨_, rfl⟩
  · exact ⟨_, rfl⟩

/-- What a step that goes on can be: a micro-op run, a turn of the engine on a command or an illegal word, an idle
turn, a bus access, or a reset. -/
inductive StepCase (s s' : State) : Prop
  | microOp (u : BitVec 16) (i : Instr) (t : State) (hissue : s.dp.seq.issue = some u)
      (hdec : decodeUop s.variant u = .ok i) (hexec : exec i s = .next t) (heq : s' = clearIssue t)
  | command (bus : List BusEvent) (i : Instr) (t : State) (hissue : NoIssue s) (hbusy : s.busy = true)
      (hbus : (s.bus = [] ∧ bus = []) ∨ s.bus = .engine :: bus) (hdec : decodeCmd s.pending = .ok i)
      (hexec : exec i { s with bus := bus } = .next t) (heq : s' = endCommand t)
  | illegal (bus : List BusEvent) (why : Reject) (hissue : NoIssue s) (hbusy : s.busy = true)
      (hbus : (s.bus = [] ∧ bus = []) ∨ s.bus = .engine :: bus) (hdec : decodeCmd s.pending = .error why)
      (heq : s' = endCommand (illegalWord { s with bus := bus }))
  | idle (bus : List BusEvent) (hissue : NoIssue s) (hbusy : s.busy = false)
      (hbus : (s.bus = [] ∧ bus = []) ∨ s.bus = .engine :: bus) (heq : s' = { s with bus := bus })
  | read (off : BitVec 12) (width : AccessWidth) (bus : List BusEvent) (hissue : NoIssue s)
      (hbus : s.bus = .read off width :: bus) (heq : s' = busRead off width { s with bus := bus })
  | write (off : BitVec 12) (width : AccessWidth) (val : BitVec 32) (bus : List BusEvent) (hissue : NoIssue s)
      (hbus : s.bus = .write off width val :: bus) (heq : s' = busWrite off width val { s with bus := bus })
  | reset (bus : List BusEvent) (hissue : NoIssue s) (hbus : s.bus = .reset :: bus)
      (heq : s' = applyReset { s with bus := bus })

theorem state_bus_self {s : State} {bus : List BusEvent} (h : s.bus = bus) : { s with bus := bus } = s := by
  subst h
  rfl

theorem stepCase_of_engine {s s' : State} {bus : List BusEvent} (hissue : NoIssue s)
    (hbus : (s.bus = [] ∧ bus = []) ∨ s.bus = .engine :: bus)
    (h : engineTurn { s with bus := bus } = .next s') : StepCase s s' := by
  cases hb : s.busy with
  | false =>
    rw [engineTurn_idle (s := { s with bus := bus }) hb] at h
    exact .idle bus hissue hb hbus (by simpa using h.symm)
  | true =>
    rw [engineTurn_busy (s := { s with bus := bus }) hb] at h
    obtain ⟨t, ht, rfl⟩ := mapNext_eq_next h
    unfold executePending at ht
    split at ht
    · next i hdec => exact .command bus i t hissue hb hbus hdec ht rfl
    · next why hdec =>
      cases ht
      exact .illegal bus why hissue hb hbus hdec rfl

/-- Every step that goes on is one of the cases. -/
theorem step_cases {s s' : State} (h : step s = .next s') : StepCase s s' := by
  cases hi : s.dp.seq.issue with
  | some u =>
    rw [step_of_issue hi] at h
    unfold issueUop at h
    split at h
    · next i hdec =>
      obtain ⟨t, ht, rfl⟩ := mapNext_eq_next h
      exact .microOp u i t hi hdec ht rfl
    · cases h
  | none =>
    rw [step_of_noIssue hi] at h
    cases hb : s.bus with
    | nil =>
      rw [nextEvent_nil hb] at h
      exact stepCase_of_engine hi (.inl ⟨hb, rfl⟩) (by rw [state_bus_self hb]; exact h)
    | cons e rest =>
      rw [nextEvent_cons hb] at h
      cases e with
      | read off width => exact .read off width rest hi hb (by simpa [takeEvent] using h.symm)
      | write off width val => exact .write off width val rest hi hb (by simpa [takeEvent] using h.symm)
      | engine => exact stepCase_of_engine hi (.inr hb) h
      | reset => exact .reset rest hi hb (by simpa [takeEvent] using h.symm)

end Sys2Proof.Machine
end

