-- ==== Sys2Proof/Tests/Slice0.lean ====
section
/-! SUPPORT. Tests/Slice0: the smoke test of WellFormed, decodings and encodings of words written out from the spec,
one-step tests with the expected values of 95_test_vectors.md, and a witness for the hypotheses of each statement. -/

namespace Sys2Proof.Tests

open Sys2Proof.Machine

/-! ### Small states -/

/-- Right after reset, with these accesses to come. -/
def idleWith (v : Variant) (bus : List BusEvent) : State := { State.resetOf v with bus := bus }

/-- A context of digest length `nn`, no key, with counter `t` and an empty buffer, in a phase. -/
def contextIn (v : Variant) (phase : Phase) (nn : BitVec 7) (t : BitVec 64) : State :=
  { State.resetOf v with phase := phase, nn := nn, t := t, dp := { Datapath.zero v with h := initialH v nn 0 } }

/-- In FAILED with PARAM. -/
def failedState (v : Variant) : State := { State.resetOf v with phase := .failed, err := .param }

/-- Busy with a command word, with these accesses to come. -/
def busyWith (s : State) (cw : BitVec 32) (bus : List BusEvent) : State :=
  { s with busy := true, pending := cw, bus := bus }

/-- A state whose vector registers VA and VB hold these lanes. -/
def lanesIn (v : Variant) (a b : Lanes v) : State :=
  { State.resetOf v with dp := { Datapath.zero v with vregs := { VFile.zero v with VA := a, VB := b } } }

/-- What a test looks at in the state of an outcome that goes on. -/
def after {α : Type} (o : Outcome) (f : State → α) : Option α :=
  match o with
  | .next s => some (f s)
  | .fault _ => none
  | .refused _ => none

/-- STATUS and COUNT. -/
def statusAndCount (s : State) : BitVec 32 × BitVec 64 := (statusWord s, s.t)

/-- The reason of a refusal. -/
def refusal (o : Outcome) : Option Refusal :=
  match o with
  | .refused r => some r
  | .next _ => none
  | .fault _ => none

/-- The answer of a read on the bus. -/
def readAt (off : BitVec 12) (s : State) : BusResp := (busRead off .bits32 s).resp

/-- The lanes of VA after a step that goes on. -/
def lanesA (o : Outcome) : Option (List Nat) :=
  after o fun s => (List.finRange 4).map fun j => (s.dp.vregs.VA.get j).toNat

/-! ### WellFormed (R103) -/

theorem test_wf_refuses_amount_of_the_word_width : Instr.wf .S (.vrotr .VA .VA 32) = false := by decide
theorem test_wf_refuses_shift_by_zero :
    Instr.wf .B (.vshl .VA .VA 0) = false ∧ Instr.wf .B (.vshr .VA .VA 0) = false := by decide

/-! ### Decoding (95_test_vectors.md 3.1, 3.2, and the bit patterns of R91 and R101) -/

theorem test_decode_init :
    decodeCmd 0b0001_0000000000000_0100000_0_1000000#32 = .ok (.init 64 32) ∧
    decodeCmd 0x1000407F = .ok (.init 127 64) := by decide
theorem test_decode_update :
    decodeCmd 0b0010_00000000000000000000_10000000#32 = .ok (.update 128) ∧
    decodeCmd 0x200000FF = .ok (.update 255) := by decide
theorem test_decode_final : decodeCmd 0b0011_0000000000000000000000000000#32 = .ok .final := by decide
theorem test_decode_compare :
    decodeCmd 0b0100_00000000000000000000_00111111#32 = .ok (.compare 63) := by decide
theorem test_decode_abort : decodeCmd 0b0101_0000000000000000000000000000#32 = .ok .abort := by decide
theorem test_decode_vadd :
    decodeUop .B 0b0001_100_101_000_000#16 = .ok (.vadd .VX .VY .VA) ∧
    decodeUop .S 0x1008 = .ok (.vadd .VA .VA .VB) := by decide
theorem test_decode_vxor : decodeUop .S 0b0010_011_011_000_000#16 = .ok (.vxor .VD .VD .VA) := by decide
theorem test_decode_vrotr :
    decodeUop .B 0b0011_101_100_111111#16 = .ok (.vrotr .VY .VX 63) ∧
    decodeUop .S 0x3040 = .ok (.vrotr .VA .VB 0) := by decide
theorem test_decode_vshl : decodeUop .S 0b0100_010_010_000_0_10#16 = .ok (.vshl .VC .VC 2) := by decide
theorem test_decode_vshr : decodeUop .B 0b0100_011_011_000_1_11#16 = .ok (.vshr .VD .VD 3) := by decide

theorem test_illegal_opcodes :
    [0x00000000#32, 0x60000000#32, 0xF0000000#32].map decodeCmd =
      [.error .illegalOpcode, .error .illegalOpcode, .error .illegalOpcode] := by decide
theorem test_illegal_reserved_bits :
    [0x10000080#32, 0x10008040#32, 0x1FFF7F7F#32, 0x20000100#32, 0x30000001#32, 0x40000100#32, 0x50000001#32].map
      decodeCmd = List.replicate 7 (.error .commandReservedBit) := by decide
theorem test_reserved_ops :
    [0x0000#16, 0x5000#16, 0xF000#16].map (decodeUop .B) = List.replicate 3 (.error .reservedOp) := by decide
theorem test_reserved_micro_op_bits :
    [0x1001#16, 0x1004#16, 0x4009#16].map (decodeUop .B) = List.replicate 3 (.error .microOpReservedBit) := by decide
theorem test_reserved_registers :
    [0x1C00#16, 0x11C0#16, 0x1030#16].map (decodeUop .B) = List.replicate 3 (.error .reservedRegister) := by decide
theorem test_reserved_amounts :
    [0x36E0#16, 0x327F#16, 0x3B3F#16, 0x3020#16].map (decodeUop .S) = List.replicate 4 (.error .amountTooLarge) := by
  decide
theorem test_reserved_shift : decodeUop .B 0x4000 = .error .zeroShift := by decide
theorem test_wrong_length : decodeBytes .B [0, 0, 0x10] = .error .wrongLength := by decide
/-- The command's byte order is R64's; the micro-op's is the model's choice (log entry 21). -/
theorem test_bytes_low_first :
    decodeBytes .B [0x40, 0x00, 0x00, 0x10] = .ok (.init 64 0) ∧ decodeBytes .B [0x08, 0x10] = .ok (.vadd .VA .VA .VB) :=
  by decide

theorem test_encode_commands :
    [Instr.init 64 64, .update 128, .final, .compare 255, .abort].map encode =
      [.cmd32 0x10004040, .cmd32 0x20000080, .cmd32 0x30000000, .cmd32 0x400000FF, .cmd32 0x50000000] := by decide
theorem test_encode_micro_ops :
    [Instr.vadd .VX .VY .VA, .vxor .VC .VC .VC, .vrotr .VD .VD 32, .vshl .VB .VB 1, .vshr .VD .VD 3].map encode =
      [.uop16 0x1940, .uop16 0x2490, .uop16 0x36E0, .uop16 0x4241, .uop16 0x46C7] := by decide

/-! ### The ALU (95_test_vectors.md 3.3) -/

theorem test_vadd_wraps_in_each_lane :
    lanesA (exec (.vadd .VA .VA .VB)
      (lanesIn .S ⟨0xFFFFFFFF, 0x80000000, 5, 0⟩ ⟨1, 0x80000000, 0xFFFFFFFF, 0⟩)) =
      some [0, 0, 4, 0] := by decide +kernel
theorem test_vadd_reads_before_writing :
    lanesA (exec (.vadd .VA .VA .VA)
      (lanesIn .S ⟨1, 0x80000000, 0xFFFFFFFF, 0⟩ ⟨0, 0, 0, 0⟩)) =
      some [2, 0, 0xFFFFFFFE, 0] := by decide +kernel
theorem test_vxor :
    lanesA (exec (.vxor .VA .VA .VB)
      (lanesIn .S ⟨0xFFFFFFFF, 0x12345678, 0, 0x80000000⟩ ⟨0x0F0F0F0F, 0x12345678, 0, 1⟩)) =
      some [0xF0F0F0F0, 0, 0, 0x80000001] := by decide +kernel
theorem test_vrotr_b :
    [1, 16, 24, 32, 63].map (fun n => rotr (v := .B) 0x0123456789ABCDEF n) =
      [0x8091A2B3C4D5E6F7, 0xCDEF0123456789AB, 0xABCDEF0123456789, 0x89ABCDEF01234567, 0x02468ACF13579BDE] := by
  decide +kernel
theorem test_vrotr_s :
    [0, 1, 7, 8, 12, 16, 31].map (fun n => rotr (v := .S) 0x12345678 n) =
      [0x12345678, 0x091A2B3C, 0xF02468AC, 0x78123456, 0x67812345, 0x56781234, 0x2468ACF0] := by decide +kernel
theorem test_vrotr_refused :
    refusal (exec (.vrotr .VA .VA 32) (State.resetOf .S)) = some (.reservedMicroOp .amountTooLarge) := by decide
theorem test_vshl :
    lanesA (exec (.vshl .VA .VB 1)
      (lanesIn .B ⟨0, 0, 0, 0⟩ ⟨0x10, 0x11, 0x12, 0x13⟩)) =
      some [0x11, 0x12, 0x13, 0x10] := by decide +kernel
theorem test_vshr :
    lanesA (exec (.vshr .VA .VB 1)
      (lanesIn .B ⟨0, 0, 0, 0⟩ ⟨0x10, 0x11, 0x12, 0x13⟩)) =
      some [0x13, 0x10, 0x11, 0x12] := by decide +kernel

/-! ### Compression (95_test_vectors.md 3.4 to 3.7) -/

theorem test_mix_b :
    mixG (v := .B) 1 2 3 4 5 6 =
      { a := 0x0000010000000C0E, b := 0x181C021802181806, c := 0x0C0E000C010C0003, d := 0x0C0E0000010C0000 } := by
  decide +kernel
theorem test_mix_s :
    mixG (v := .S) 0x6A09E667 0x510E527F 0xBB67AE85 0x9B05688C 1 2 =
      { a := 0x88EDE6B2, b := 0x42ECFDF1, c := 0xBBAB5568, d := 0xAFD886C6 } := by decide +kernel
theorem test_first_word :
    (initialH .B 32 16)[0] = 0x6A09E667F2BDD928 ∧ (initialH .S 28 8)[0] = 0x6B08EE7B := by decide +kernel
theorem test_counter_and_flag_s :
    let V := workingVector (initialH .S 32 0) 0x0000000500000007 false
    V[12] = 0x510E5278 ∧ V[13] = 0x9B056889 ∧ V[14] = 0x1F83D9AB ∧ V[15] = 0x5BE0CD19 := by decide +kernel
theorem test_counter_and_flag_b :
    let V := workingVector (initialH .B 64 0) 0x100000000 false
    V[12] = 0x510E527EADE682D1 ∧ V[13] = 0x9B05688C2B3E6C1F ∧
    (workingVector (initialH .B 64 0) 3 true)[14] = 0xE07C265404BE4294 := by decide +kernel

/-- The block of "abc". -/
def abcBlock (v : Variant) : Vector Byte v.bb := Vector.ofFn fun i => ([0x61, 0x62, 0x63] : List Byte).getD i.val 0

theorem test_round_zero_of_abc_b :
    let V := round (leWord (abcBlock .B)) (sigma 0) (workingVector (initialH .B 64 0) 3 true)
    V[0] = 0x86B7C1568029BB79 ∧ V[7] = 0x595CB8A9A1ACA66C ∧ V[10] = 0xFA87B01273FA6DBE ∧
    V[13] = 0x1C7B754F08B7D193 := by decide +kernel
theorem test_compress_of_abc_b :
    let h := compress (initialH .B 64 0) (leWord (abcBlock .B)) 3 true
    h[0] = 0x0D4D1C983FA580BA ∧ h[7] = 0x239900D4ED8623B9 := by decide +kernel
theorem test_compress_of_abc_s :
    (compress (initialH .S 32 0) (leWord (abcBlock .S)) 3 true).toList.map BitVec.toNat =
      [0x8C5E8C50, 0xE2147C32, 0xA32BA7E1, 0x2F45EB4E, 0x208B4537, 0x293AD69E, 0x4C9B994D, 0x82596786] := by
  decide +kernel
theorem test_datapath_of_abc_s :
    (compressDatapath 3 true { Datapath.zero .S with h := initialH .S 32 0, buf := abcBlock .S }).h[0] = 0x8C5E8C50 := by
  decide +kernel

/-! ### Commands (95_test_vectors.md 3.8 to 3.10) -/

theorem test_init_keyed :
    after (exec (.init 1 64) (State.resetOf .B)) statusAndCount = some (0x00800001, 0x80) := by decide +kernel
theorem test_init_bad_operands :
    [Instr.init 0 0, .init 33 0, .init 32 33].map (fun i => after (exec i (State.resetOf .S)) statusAndCount) =
      List.replicate 3 (some (0x00000204, 0)) := by decide +kernel
theorem test_update_fills :
    after (exec (.update 5) (contextIn .B .fresh 64 0)) statusAndCount = some (0x00050002, 5) := by decide +kernel
theorem test_update_at_the_limit :
    after (exec (.update 2) (contextIn .B .absorbing 64 0xFFFFFFFFFFFFFFFE)) statusAndCount =
      some (0x00000404, 0xFFFFFFFFFFFFFFFF) := by decide +kernel
theorem test_update_zero_at_the_limit :
    after (exec (.update 0) (contextIn .B .absorbing 64 0xFFFFFFFFFFFFFFFF)) statusAndCount =
      some (0x007F0002, 0xFFFFFFFFFFFFFFFF) := by decide +kernel
theorem test_update_out_of_sequence :
    after (exec (.update 3) (State.resetOf .B)) statusAndCount = some (0x00000304, 0) ∧
    after (exec (.update 129) (contextIn .B .absorbing 64 3)) statusAndCount = some (0x00000204, 3) := by
  decide +kernel
/-- S2: BLAKE2s-256 of the empty message starts 69 21 7a 30. -/
theorem test_final_of_the_empty_message :
    after (exec .final (contextIn .S .fresh 32 0)) (fun s => (statusWord s, digestWord s 0, digestWord s 0x20)) =
      some (0x00000003, 0x307A2169, 0) := by decide +kernel
theorem test_final_twice :
    after (exec .final (contextIn .B .finalized 64 0)) statusAndCount = some (0x00000304, 0) := by
  decide +kernel
theorem test_compare_tells :
    let s := { contextIn .B .finalized 1 3 with dig := (Vector.replicate 64 0).set 0 0xBA, mem := [(0x100, 0xBA)] }
    after (exec (.compare 1) s) statusAndCount = some (0x00000033, 3) ∧
    after (exec (.compare 2) s) statusAndCount = some (0x00000023, 3) := by decide +kernel
theorem test_compare_sees_the_last_byte :
    let s := { contextIn .B .finalized 64 3 with dig := (Vector.replicate 64 0).set 63 0x23, mem := [(0x13F, 0xDC)] }
    after (exec (.compare 64) s) statusAndCount = some (0x00000023, 3) := by decide +kernel
theorem test_abort_leaves_failed :
    after (exec .abort (failedState .B)) statusAndCount = some (0x00000000, 0) := by decide +kernel

/-! ### The bus (95_test_vectors.md 3.11, 3.12) -/

theorem test_reset_reads :
    [0x000#12, 0x004#12, 0x008#12, 0x00C#12, 0x014#12, 0x018#12, 0x040#12, 0x17C#12, 0xFFC#12].map
      (fun off => readAt off (State.resetOf .S)) =
      .data 0x01200A73 :: List.replicate 8 (.data 0) := by decide +kernel
theorem test_din_word_is_little_endian :
    after (step (idleWith .B [.write 0x080 .bits32 0x00636261])) (fun s => (dinBytes s 4, readAt 0x080 s)) =
      some ([0x61, 0x62, 0x63, 0x00], .data 0x00636261) := by decide +kernel
theorem test_read_event_answers :
    after (step (idleWith .B [.read 0x000 .bits32])) (fun s => s.resp) = some (.data 0x01400C62) ∧
    after (step (idleWith .B [.read 0x002 .bits32])) (fun s => s.resp) = some .error := by decide +kernel
theorem test_key_is_write_only :
    after (step (idleWith .B [.write 0x040 .bits32 0x03020100])) (fun s => (keyByte s 3, readAt 0x040 s)) =
      some (0x03, .data 0) := by decide +kernel
theorem test_write_while_busy_is_dropped :
    after (step (busyWith (contextIn .B .fresh 64 0) 0x20000003 [.write 0x084 .bits32 0xDEADBEEF]))
      (fun s => (s.mem, s.viol)) = some ([], true) := by decide +kernel
theorem test_completion_raises_busy :
    after (step { busyWith (contextIn .B .fresh 64 0) 0x20000003 [.engine] with viol := true }) statusAndCount =
      some (0x00000504, 3) := by decide +kernel
theorem test_completion_keeps_the_first_error :
    after (step { busyWith (State.resetOf .B) 0x20000003 [.engine] with viol := true }) statusAndCount =
      some (0x00000304, 0) := by decide +kernel
theorem test_illegal_word_fails :
    after (step (busyWith (contextIn .B .absorbing 64 7) 0x00000000 [])) statusAndCount = some (0x00000104, 7) := by
  decide +kernel
theorem test_narrow_write_sets_nothing :
    after (step (busyWith (State.resetOf .B) 0x30000000 [.write 0x006 .bits16 0])) (fun s => (s.viol, s.resp)) =
      some (false, .error) := by decide +kernel
theorem test_placed_words_run :
    after (step (State.reset.withFetchWord 32 0x10000040)) statusAndCount = some (0x00000001, 0) ∧
    decodeTableWord 16 0x1008 = some (.vadd .VA .VA .VB) ∧ decodeTableWord 32 0x10000040 = some (.init 64 0) := by
  decide +kernel

/-! ### Witnesses: states and operands that meet the hypotheses of each statement -/

theorem witness_DecodeOfEncodeIsTheInstruction :
    Instr.wf .B (.vrotr .VY .VX 63) = true ∧ Instr.wf .S (.vrotr .VA .VA 31) = true ∧
    Instr.wf .S (.vshl .VD .VD 1) = true ∧ Instr.wf .B (.vshr .VD .VD 3) = true ∧
    Instr.wf .B (.init 127 127) = true := by decide

theorem witness_EncodeOfDecodeIsTheWord :
    decode .S (.cmd32 0x10007F01) = .ok (.init 1 127) ∧ decode .B (.uop16 0x327F) = .ok (.vrotr .VB .VB 63) := by decide

theorem witness_CommandWordsAreTheTableRows :
    decodeCmd 0x400000FF = .ok (.compare 255) ∧
    ∃ row ∈ commandTable, ∃ row' ∈ commandTable, row.fits 0x400000FF = true ∧ row'.fits 0x400000FF = true := by decide

theorem witness_VrotrRotatesLanesRight :
    (63 : BitVec 6).toNat < (State.resetOf .B).variant.w ∧ (31 : BitVec 6).toNat < (State.resetOf .S).variant.w ∧
    (State.resetOf .S).variant.w ≤ (32 : BitVec 6).toNat := by
  decide

theorem witness_RotationMovesEveryBit : 63 < Variant.w .B ∧ 31 < Variant.w .S ∧ 0 < Variant.w .S := by decide

theorem witness_VshlShiftsLanesLeft_VshrShiftsLanesRight : (1 : BitVec 2) ≠ 0 ∧ (3 : BitVec 2) ≠ 0 := by decide

/-- A micro-op word at the ALU's input. -/
def issued (v : Variant) (u : BitVec 16) : State :=
  { State.resetOf v with dp := { Datapath.zero v with seq := { Seq.idle with issue := some u } } }

/-- One word for each way to be reserved, and a word of the ROM. -/
theorem witness_ReservedMicroOpsAreRefused :
    (0x0FFF#16).toNat >>> 12 = 0 ∧ 5 ≤ (0x5000#16).toNat >>> 12 ∧ 6 ≤ ((0x1C00#16).toNat >>> 9) % 8 ∧
    6 ≤ ((0x11C0#16).toNat >>> 6) % 8 ∧ ((0x1030#16).toNat >>> 12 = 1 ∧ 6 ≤ ((0x1030#16).toNat >>> 3) % 8) ∧
    ((0x2001#16).toNat >>> 12 = 2 ∧ (0x2001#16).toNat % 8 ≠ 0) ∧
    ((0x3020#16).toNat >>> 12 = 3 ∧ Variant.w .S ≤ (0x3020#16).toNat % 64) ∧
    ((0x4009#16).toNat >>> 12 = 4 ∧ ((0x4009#16).toNat >>> 3) % 8 ≠ 0) ∧
    ((0x4000#16).toNat >>> 12 = 4 ∧ (0x4000#16).toNat % 4 = 0) ∧
    (issued .S 0x3020).variant = .S ∧ (issued .S 0x3020).dp.seq.issue = some 0x3020 ∧
    SeqItem.uop 0x46C7 ∈ roundProgram .S := by decide

theorem witness_BytesAndWordsAreLittleEndian : 7 < Variant.wb .B ∧ 3 < Variant.wb .S := by decide

theorem witness_InitSetsUpAContext :
    (1 ≤ (1 : BitVec 7).toNat ∧ (1 : BitVec 7).toNat ≤ (failedState .B).variant.nnMax ∧
      (0 : BitVec 7).toNat ≤ (failedState .B).variant.kkMax) ∧
    (1 ≤ (32 : BitVec 7).toNat ∧ (32 : BitVec 7).toNat ≤ (failedState .S).variant.nnMax ∧
      (32 : BitVec 7).toNat ≤ (failedState .S).variant.kkMax) ∧
    (0 : BitVec 7).toNat = 0 ∧ (failedState .B).variant.nnMax < (65 : BitVec 7).toNat ∧
    (failedState .S).variant.kkMax < (33 : BitVec 7).toNat := by decide

theorem witness_UpdateAbsorbsTheDinBytes :
    ((contextIn .B .fresh 64 0).phase.accepting = true ∧ (128 : BitVec 8).toNat ≤ 128 ∧
      (contextIn .B .fresh 64 0).t.toNat + (128 : BitVec 8).toNat < 2 ^ 64) ∧
    ((contextIn .S .absorbing 32 0xFFFFFFFFFFFFFFFE).phase.accepting = true ∧ (1 : BitVec 8).toNat ≤ 128 ∧
      (contextIn .S .absorbing 32 0xFFFFFFFFFFFFFFFE).t.toNat + (1 : BitVec 8).toNat < 2 ^ 64) ∧
    (State.resetOf .B).phase = .none ∧ (contextIn .B .finalized 64 3).phase = .finalized ∧
    128 < (129 : BitVec 8).toNat ∧ (contextIn .S .absorbing 32 0xFFFFFFFFFFFFFFFE).err = .none ∧
    2 ^ 64 ≤ (contextIn .S .absorbing 32 0xFFFFFFFFFFFFFFFE).t.toNat + (2 : BitVec 8).toNat := by decide

theorem witness_UpdateWithinABlockCompressesNothing :
    let s := contextIn .S .absorbing 32 1
    s.phase.accepting = true ∧ (63 : BitVec 8).toNat ≤ 128 ∧
    fill s.variant s.t + (63 : BitVec 8).toNat ≤ s.variant.bb ∧ s.t.toNat + (63 : BitVec 8).toNat < 2 ^ 64 := by decide

theorem witness_ZeroLengthUpdateChangesNothing : (contextIn .B .absorbing 64 128).phase.accepting = true := by decide

theorem witness_CounterOverflowFails :
    let s := contextIn .B .absorbing 64 0xFFFFFFFFFFFFFFFF
    s.phase.accepting = true ∧ (1 : BitVec 8).toNat ≤ 128 ∧ 2 ^ 64 ≤ s.t.toNat + (1 : BitVec 8).toNat := by decide

theorem witness_FinalProducesTheDigest :
    (contextIn .B .fresh 64 0).phase.accepting = true ∧ (contextIn .S .absorbing 32 5).phase.accepting = true ∧
    (State.resetOf .B).phase = .none ∧ (contextIn .B .finalized 64 0).phase = .finalized ∧
    (63 : Fin 64).val / (contextIn .B .fresh 64 0).variant.wb = (7 : Fin 8).val ∧
    (63 : Fin 64).val < (contextIn .B .fresh 64 0).nn.toNat := by decide

theorem witness_StreamingEqualsOneShotHash :
    ∃ (s1 : State) (msg : List Byte), msg.length = 1 ∧
      1 ≤ (64 : BitVec 7).toNat ∧ (64 : BitVec 7).toNat ≤ (State.resetOf .B).variant.nnMax ∧
      (0 : BitVec 7).toNat ≤ (State.resetOf .B).variant.kkMax ∧
      (if (0 : BitVec 7) = 0 then 0 else (State.resetOf .B).variant.bb) + msg.length < 2 ^ 64 ∧
      ∃ s0, exec (.init 64 0) (State.resetOf .B) = .next s0 ∧ Updates s0 msg s1 :=
  ⟨_, _, rfl, by decide, by decide, by decide, by decide, _, rfl,
    .more _ [(0x080, 0x61)] 1 _ [] _ (by decide) rfl (.done _)⟩

/-- The same with a key of the largest length. -/
theorem witness_StreamingEqualsOneShotHash_keyed :
    ∃ (s1 : State) (msg : List Byte), msg.length = 1 ∧
      1 ≤ (1 : BitVec 7).toNat ∧ (1 : BitVec 7).toNat ≤ (failedState .S).variant.nnMax ∧
      (32 : BitVec 7).toNat ≤ (failedState .S).variant.kkMax ∧
      (if (32 : BitVec 7) = 0 then 0 else (failedState .S).variant.bb) + msg.length < 2 ^ 64 ∧
      ∃ s0, exec (.init 1 32) (failedState .S) = .next s0 ∧ Updates s0 msg s1 :=
  ⟨_, _, rfl, by decide, by decide, by decide, by decide, _, rfl,
    .more _ [(0x080, 0x61)] 1 _ [] _ (by decide) rfl (.done _)⟩

theorem witness_CompareTellsEquality :
    ((contextIn .B .finalized 64 3).phase = .finalized ∧
      (contextIn .B .finalized 64 3).nn.toNat ≤ (contextIn .B .finalized 64 3).variant.nnMax) ∧
    (State.resetOf .S).phase = .none ∧ (contextIn .S .fresh 32 0).phase = .fresh ∧
    (contextIn .S .absorbing 32 1).phase = .absorbing ∧ (failedState .S).phase = .failed := by decide

theorem witness_FailureEntry : ErrCode.param ≠ .none := by decide

/-- Phases, the first error codes, and commands that go on, for every clause of the statement. -/
theorem witness_OutOfSequenceCommandsFail :
    ((State.resetOf .B).phase = .none ∧ (contextIn .B .finalized 64 3).phase = .finalized) ∧
    ((contextIn .B .fresh 64 0).phase = .fresh ∧ (contextIn .B .absorbing 64 1).phase = .absorbing) ∧
    (failedState .B).phase = .failed ∧
    (∃ s', exec (.init 64 0) (State.resetOf .B) = .next s') ∧ (∃ s', exec .abort (State.resetOf .B) = .next s') ∧
    ((contextIn .B .fresh 64 0).phase.accepting = true ∧ (contextIn .B .fresh 64 0).err ≠ .seq ∧
      (∃ s', exec (.update 128) (contextIn .B .fresh 64 0) = .next s') ∧
      ∃ s', exec .final (contextIn .B .fresh 64 0) = .next s') ∧
    ((contextIn .B .finalized 64 3).err ≠ .seq ∧
      ∃ s', exec (.compare 255) (contextIn .B .finalized 64 3) = .next s') :=
  ⟨by decide, by decide, by decide, ⟨_, rfl⟩, ⟨_, rfl⟩, ⟨by decide, by decide, ⟨_, rfl⟩, ⟨_, rfl⟩⟩, by decide, ⟨_, rfl⟩⟩

theorem witness_OperandsOutOfBoundsFail :
    (0 : BitVec 7).toNat = 0 ∧ (State.resetOf .S).variant.nnMax < (33 : BitVec 7).toNat ∧
    (State.resetOf .B).variant.kkMax < (65 : BitVec 7).toNat ∧
    (contextIn .B .fresh 64 0).phase.accepting = true ∧ 128 < (129 : BitVec 8).toNat ∧
    (contextIn .B .finalized 64 0).err ≠ .param ∧
    ∃ s', exec (.compare 255) (contextIn .B .finalized 64 0) = .next s' :=
  ⟨by decide, by decide, by decide, by decide, by decide, by decide, ⟨_, rfl⟩⟩

theorem witness_OnlyInitAbortOrResetLeaveFailed :
    (NoIssue (busyWith (failedState .B) 0x50000000 [.engine]) ∧
      (busyWith (failedState .B) 0x50000000 [.engine]).phase = .failed ∧
      ∃ s', step (busyWith (failedState .B) 0x50000000 [.engine]) = .next s' ∧ s'.phase ≠ .failed) ∧
    ∃ s', step { failedState .B with bus := [.reset] } = .next s' ∧ s'.phase ≠ .failed :=
  ⟨⟨rfl, rfl, _, rfl, by decide⟩, _, rfl, by decide⟩

theorem witness_StepCompletesThePendingCommand :
    (NoIssue (busyWith (State.resetOf .B) 0x200000FF [.engine]) ∧
      (busyWith (State.resetOf .B) 0x200000FF [.engine]).busy = true ∧
      (busyWith (State.resetOf .B) 0x200000FF [.engine]).bus = .engine :: [] ∧
      decodeCmd (busyWith (State.resetOf .B) 0x200000FF [.engine]).pending = .ok (.update 255)) ∧
    NoIssue (busyWith (State.resetOf .S) 0x60000000 [.engine]) ∧
    (busyWith (State.resetOf .S) 0x60000000 [.engine]).bus = .engine :: [] ∧
    decodeCmd (busyWith (State.resetOf .S) 0x60000000 [.engine]).pending = .error .illegalOpcode :=
  ⟨⟨rfl, rfl, rfl, rfl⟩, rfl, rfl, rfl⟩

theorem witness_StepRunsTheIssuedMicroOp :
    (issued .S 0x1008).dp.seq.issue = some 0x1008 ∧
    decodeUop (issued .S 0x1008).variant 0x1008 = .ok (.vadd .VA .VA .VB) := ⟨rfl, rfl⟩

theorem witness_PlacedWordRunsNext :
    decodeCmd 0x10000040 = .ok (.init 64 0) ∧ decodeUop State.reset.variant 0x327F = .ok (.vrotr .VB .VB 63) := by
  decide

theorem witness_IllegalWordsFail :
    (NoIssue (busyWith (State.resetOf .B) 0 [.engine]) ∧ (busyWith (State.resetOf .B) 0 [.engine]).busy = true ∧
      (∀ row ∈ commandTable, row.fits (busyWith (State.resetOf .B) 0 [.engine]).pending = false) ∧
      (busyWith (State.resetOf .B) 0 [.engine]).phase ≠ .failed) ∧
    (∀ row ∈ commandTable, row.fits (busyWith (failedState .B) 0x30000001 [.engine]).pending = false) ∧
    (busyWith (failedState .B) 0x30000001 [.engine]).phase = .failed :=
  ⟨⟨rfl, rfl, by decide, by decide⟩, by decide, rfl⟩

theorem witness_CompletionEndsTheHandshake :
    let s := { busyWith (State.resetOf .B) 0x30000000 [.engine] with viol := true }
    NoIssue s ∧ s.busy = true ∧ s.bus = .engine :: [] ∧ s.viol = true := ⟨rfl, rfl, rfl, rfl⟩

theorem witness_CommandWriteStartsOrIsDropped :
    (NoIssue (idleWith .B [.write 0x004 .bits32 0x50000000]) ∧ (0x004#12).toNat % 4 = 0 ∧
      (idleWith .B [.write 0x004 .bits32 0x50000000]).busy = false) ∧
    NoIssue (busyWith (State.resetOf .B) 0 [.write 0xFFC .bits32 0]) ∧ (0xFFC#12).toNat % 4 = 0 ∧
    (busyWith (State.resetOf .B) 0 [.write 0xFFC .bits32 0]).busy = true ∧
    (busyWith (State.resetOf .B) 0 [.write 0xFFC .bits32 0]).bus = .write 0xFFC .bits32 0 :: [] :=
  ⟨⟨rfl, rfl, rfl⟩, rfl, rfl, rfl, rfl⟩

theorem witness_OnlyCommandWritesStartCommands :
    ∃ s', step (idleWith .S [.write 0x004 .bits32 0x50000000]) = .next s' ∧
      (idleWith .S [.write 0x004 .bits32 0x50000000]).busy = false ∧ s'.busy = true := ⟨_, rfl, rfl, rfl⟩

theorem witness_WritesToReadOnlyOffsetsAreIgnored :
    ∀ off ∈ [0x000#12, 0x03C#12, 0x140#12, 0xFFC#12],
      NoIssue (idleWith .B [.write off .bits32 1]) ∧ (idleWith .B [.write off .bits32 1]).busy = false ∧
      off.toNat % 4 = 0 ∧ off ≠ 0x004 ∧ (off.toNat < 0x040 ∨ 0x140 ≤ off.toNat) ∧
      NoIssue (busyWith (State.resetOf .B) 0 [.write off .bits32 1]) ∧
      (busyWith (State.resetOf .B) 0 [.write off .bits32 1]).bus = .write off .bits32 1 :: [] := by
  simp [NoIssue, idleWith, busyWith, State.resetOf, Datapath.zero, Seq.idle]

theorem witness_WindowWritesStoreFourBytes :
    ∀ off ∈ [0x040#12, 0x080#12, 0x100#12, 0x13C#12],
      NoIssue (idleWith .B [.write off .bits32 1]) ∧ off.toNat % 4 = 0 ∧ 0x040 ≤ off.toNat ∧ off.toNat < 0x140 ∧
      (idleWith .B [.write off .bits32 1]).busy = false ∧
      (busyWith (State.resetOf .B) 0 [.write off .bits32 1]).busy = true ∧
      Memory.wf (idleWith .B [.write off .bits32 1]).mem := by
  simp [NoIssue, idleWith, busyWith, State.resetOf, Datapath.zero, Seq.idle, Memory.wf]

theorem witness_BadAccessesGetABusError :
    (NoIssue (idleWith .B [.write 0x080 .bits64 0]) ∧ AccessWidth.bits64 ≠ .bits32 ∧
      (idleWith .B [.write 0x080 .bits64 0]).bus = .write 0x080 .bits64 0 :: []) ∧
    NoIssue (busyWith (State.resetOf .S) 0 [.read 0xFFF .bits32]) ∧ (0xFFF#12).toNat % 4 ≠ 0 ∧
    (busyWith (State.resetOf .S) 0 [.read 0xFFF .bits32]).bus = .read 0xFFF .bits32 :: [] :=
  ⟨⟨rfl, by decide, rfl⟩, rfl, by decide, rfl⟩

theorem witness_ReadsHaveNoSideEffect :
    (NoIssue (busyWith (State.resetOf .S) 0 [.read 0xFFC .bits32]) ∧ (0xFFC#12).toNat % 4 = 0 ∧
      (busyWith (State.resetOf .S) 0 [.read 0xFFC .bits32]).bus = .read 0xFFC .bits32 :: []) ∧
    NoIssue (idleWith .B [.read 0x141 .bits8]) ∧
    (idleWith .B [.read 0x141 .bits8]).bus = .read 0x141 .bits8 :: [] := ⟨⟨rfl, rfl, rfl⟩, rfl, rfl⟩

theorem witness_PlainRegistersRead_StatusShowsItsFields_ReadsWhileBusy :
    (contextIn .S .fresh 32 64).busy = false ∧ (busyWith (contextIn .S .fresh 32 64) 0x30000000 []).busy = true ∧
    ∀ off ∈ [0x018#12, 0x07C#12, 0x080#12, 0x13C#12, 0x180#12, 0xFFC#12], off.toNat % 4 = 0 := by decide

theorem witness_StagingWindowsRead_DigestWindowIsMasked :
    (∀ off ∈ [0x040#12, 0x07C#12], off.toNat % 4 = 0 ∧ 0x040 ≤ off.toNat ∧ off.toNat < 0x080) ∧
    (∀ off ∈ [0x018#12, 0x03C#12, 0x180#12, 0xFFC#12],
      off.toNat % 4 = 0 ∧ ((0x018 ≤ off.toNat ∧ off.toNat < 0x040) ∨ 0x180 ≤ off.toNat)) ∧
    (∀ off ∈ [0x080#12, 0x0FC#12, 0x100#12, 0x13C#12], off.toNat % 4 = 0 ∧ 0x080 ≤ off.toNat ∧ off.toNat < 0x140) ∧
    (∀ off ∈ [0x140#12, 0x17C#12], off.toNat % 4 = 0 ∧ 0x140 ≤ off.toNat ∧ off.toNat < 0x180) ∧
    (contextIn .B .finalized 20 3).busy = false ∧ (63 : Fin 64).val + 0x140 = (0x17C#12).toNat + 3 := by decide

theorem witness_ReadsRevealNoKey (a : Nat) (h : a < 0x040 ∨ 0x080 ≤ a) :
    Memory.read [(0x040, 0x11), (0x07F, 0x22)] a = Memory.read (State.resetOf .B).mem a := by
  have h0 : 0x040 ≠ a := by omega
  have h1 : 0x07F ≠ a := by omega
  simp [Memory.read, State.resetOf, h0, h1]

theorem witness_WindowIsFourKibibytes :
    ∃ addr, addr < Config.b2coreBase ∨ Config.b2coreBase + 4096 ≤ addr := ⟨Config.b2coreBase + 4096, .inr (Nat.le_refl _)⟩

theorem witness_ResetValues : ∀ off ∈ [0x004#12, 0xFFC#12], off.toNat % 4 = 0 ∧ off ≠ 0 := by decide

theorem witness_ResetIsTakenAtAnyTime :
    NoIssue (busyWith (failedState .S) 0x30000000 [.reset]) ∧
    (busyWith (failedState .S) 0x30000000 [.reset]).bus = .reset :: [] := ⟨rfl, rfl⟩

theorem witness_InstructionsLeaveTheHostSideAlone :
    (∃ s', exec (.vxor .VC .VC .VC) (State.resetOf .B) = .next s') ∧
    ∃ s', step (idleWith .B [.write 0x13C .bits32 1]) = .next s' ∧ s'.mem ≠ (idleWith .B [.write 0x13C .bits32 1]).mem :=
  ⟨⟨_, rfl⟩, _, rfl, by decide⟩

/-- A state other than reset that has the invariant, and whose step goes on: an INIT pending. -/
theorem witness_StepKeepsTheInvariant :
    (busyWith (failedState .B) 0x10004040 [.engine]).Inv ∧
    ∃ s', step (busyWith (failedState .B) 0x10004040 [.engine]) = .next s' := by
  refine ⟨?_, _, rfl⟩
  constructor <;>
    simp [busyWith, failedState, State.resetOf, Datapath.zero, Seq.idle, Phase.live, Phase.accepting, Memory.wf]

/-- FINAL pending in FAILED, a violation recorded. -/
theorem witness_FailedRefusesEverythingElse :
    let s := { busyWith (failedState .S) 0x30000000 [.engine] with viol := true }
    s.Inv ∧ NoIssue s ∧ s.phase = .failed ∧ s.busy = true ∧ s.bus = .engine :: [] ∧
      decodeCmd s.pending = .ok .final := by
  refine ⟨?_, rfl, rfl, rfl, rfl, rfl⟩
  constructor <;>
    simp [busyWith, failedState, State.resetOf, Datapath.zero, Seq.idle, Phase.live, Phase.accepting, Memory.wf]

theorem witness_NothingIsStuck_EveryCommandCompletes :
    NoIssue (busyWith (State.resetOf .S) 0x30000000 [.write 0x004 .bits32 0, .engine]) ∧
    NoIssue (busyWith (State.resetOf .S) 0x30000000 []) ∧ (busyWith (State.resetOf .S) 0x30000000 []).bus = [] :=
  ⟨rfl, rfl, rfl⟩

end Sys2Proof.Tests
end

section
/-! PROOFS. Byte order: `le_word` and `le_bytes` as sums and shifts (R16). -/

namespace Sys2Proof.Machine

/-- The little-endian number of the first `n` values of `f`, as a sum of digits to the base 256. -/
theorem leNat_map_range (f : Nat → Byte) (n : Nat) :
    leNat ((List.range n).map f) = ∑ k ∈ Finset.range n, (f k).toNat * 2 ^ (8 * k) := by
  induction n generalizing f with
  | zero => rfl
  | succ n ih =>
    have shift : 256 * leNat ((List.range n).map (f ∘ Nat.succ)) =
        ∑ k ∈ Finset.range n, (f (k + 1)).toNat * 2 ^ (8 * (k + 1)) := by
      rw [ih, Finset.mul_sum]
      refine Finset.sum_congr rfl fun k _ => ?_
      rw [Function.comp_apply, Nat.mul_succ, Nat.pow_add]
      ring
    rw [List.range_succ_eq_map, List.map_cons, List.map_map, leNat, shift, Finset.sum_range_succ']
    omega

/-- `WB` bytes fit a word of `w` bits, so that `leWord` drops nothing. -/
theorem leWord_toNat {v : Variant} (buf : Vector Byte v.bb) (i : Fin 16) :
    (leWord buf i).toNat = leNat ((List.range v.wb).map fun k => bufByte buf (v.wb * i.val + k)) := by
  have hlt := leNat_lt ((List.range v.wb).map fun k => bufByte buf (v.wb * i.val + k))
  have hpow : 256 ^ v.wb = 2 ^ v.w := by rw [v.w_eq, Nat.pow_mul]
  rw [List.length_map, List.length_range, hpow] at hlt
  exact (BitVec.toNat_ofNat _ _).trans (Nat.mod_eq_of_lt hlt)

/-- Offset `WB·i + k` of `le_bytes(W)` lies in word `i`, at its byte `k`. -/
theorem leByte_word {v : Variant} (h : Vector (Word v) 8) (i : Fin 8) {k : Nat} (hk : k < v.wb) :
    leByte h (v.wb * i.val + k) = byteOf h[i] k := by
  have hdiv : (v.wb * i.val + k) / v.wb = i.val := by
    rw [Nat.mul_add_div (Nat.zero_lt_of_lt hk), Nat.div_eq_of_lt hk, Nat.add_zero]
  have hmod : (v.wb * i.val + k) % v.wb = k := by rw [Nat.mul_add_mod, Nat.mod_eq_of_lt hk]
  simp [leByte, hdiv, hmod]

/-- Settles O15: the digits of `leNat` summed up, and the byte of the word that the offset falls in. -/
theorem bytesAndWordsAreLittleEndian : Obligations.BytesAndWordsAreLittleEndian := by
  refine ⟨fun v buf i => ?_, fun v h i k hk => ?_⟩
  · rw [leWord_toNat, leNat_map_range]
  · rw [leByte_word h i hk, byteOf_toNat]

end Sys2Proof.Machine
end

section
/-! PROOFS. The host's side of the state: what instructions leave alone, and what changes the staging windows (R34). -/

namespace Sys2Proof.Machine

/-! ### Instructions -/

theorem fail_kept (code : ErrCode) (s : State) : HostSideKept s (fail code s) :=
  ⟨rfl, rfl, rfl, rfl, rfl, rfl, rfl, rfl⟩

theorem abortState_kept (s : State) : HostSideKept s (abortState s) := ⟨rfl, rfl, rfl, rfl, rfl, rfl, rfl, rfl⟩

theorem newContext_kept (nn kk : BitVec 7) (s : State) : HostSideKept s (newContext nn kk s) :=
  ⟨rfl, rfl, rfl, rfl, rfl, rfl, rfl, rfl⟩

theorem finalize_kept (s : State) : HostSideKept s (finalize s) := ⟨rfl, rfl, rfl, rfl, rfl, rfl, rfl, rfl⟩

theorem setVregs_kept (s : State) (V : VFile s.variant) : HostSideKept s (setVregs s V) :=
  ⟨rfl, rfl, rfl, rfl, rfl, rfl, rfl, rfl⟩

theorem execInit_kept {nn kk : BitVec 7} {s s' : State} (he : execInit nn kk s = .next s') : HostSideKept s s' := by
  unfold execInit at he
  split at he <;> cases he
  · exact (abortState_kept s).trans (newContext_kept nn kk (abortState s))
  · exact (abortState_kept s).trans (fail_kept .param (abortState s))

theorem execUpdate_kept {len : BitVec 8} {s s' : State} (he : execUpdate len s = .next s') : HostSideKept s s' := by
  unfold execUpdate at he
  split at he
  case h_1 =>
    cases he
    exact .refl s
  case h_2 | h_3 =>
    cases he
    exact fail_kept .seq s
  case h_4 | h_5 =>
    split at he <;> cases he
    · exact absorbBytes_kept _ s
    · exact fail_kept .param s

theorem execFinal_kept {s s' : State} (he : execFinal s = .next s') : HostSideKept s s' := by
  unfold execFinal at he
  split at he <;> cases he
  case h_1 => exact .refl s
  case h_2 | h_3 => exact fail_kept .seq s
  case h_4 | h_5 => exact finalize_kept s

theorem execCompare_kept {len : BitVec 8} {s s' : State} (he : execCompare len s = .next s') : HostSideKept s s' := by
  unfold execCompare at he
  split at he <;> cases he
  case h_1 => exact .refl s
  case h_2 | h_3 | h_4 => exact fail_kept .seq s
  case h_5 => exact ⟨rfl, rfl, rfl, rfl, rfl, rfl, rfl, rfl⟩

/-- What an instruction that goes on can be: one of the five commands, or a micro-op that writes the vector registers
and nothing else (R121 to R125). -/
theorem exec_command_or_setVregs {i : Instr} {s s' : State} (he : exec i s = .next s') :
    (∃ nn kk, i = .init nn kk) ∨ (∃ len, i = .update len) ∨ i = .final ∨ (∃ len, i = .compare len) ∨ i = .abort ∨
      ∃ V, s' = setVregs s V := by
  cases i with
  | vadd d a b | vxor d a b =>
    cases he
    simp
  | vrotr d a amt | vshl d a k | vshr d a k =>
    simp only [exec, execVrotr, execVshl, execVshr] at he
    split at he <;> cases he
    simp
  | init | update | final | compare | abort => simp

theorem exec_kept {i : Instr} {s s' : State} (he : exec i s = .next s') : HostSideKept s s' := by
  rcases exec_command_or_setVregs he with
    ⟨nn, kk, rfl⟩ | ⟨len, rfl⟩ | rfl | ⟨len, rfl⟩ | rfl | ⟨V, rfl⟩
  · exact execInit_kept he
  · exact execUpdate_kept he
  · exact execFinal_kept he
  · exact execCompare_kept he
  · cases he
    exact abortState_kept s
  · exact setVregs_kept s V

/-! ### Steps -/

theorem illegalWord_kept (s : State) : HostSideKept s (illegalWord s) := by
  unfold illegalWord
  split
  · exact .refl s
  all_goals exact fail_kept .illegal s

@[simp] theorem endCommand_mem (s : State) : (endCommand s).mem = s.mem := by
  unfold endCommand
  split <;> rfl

@[simp] theorem busRead_mem (off : BitVec 12) (width : AccessWidth) (s : State) :
    (busRead off width s).mem = s.mem := by
  unfold busRead
  split
  · obtain ⟨word, draws, heq⟩ := hostRead_frame off s
    rw [heq]
  · rfl

/-- R72: a host write changes the staging windows only where it is served with the block not busy. -/
theorem busWrite_mem_ne {off : BitVec 12} {width : AccessWidth} {val : BitVec 32} {s : State}
    (h : (busWrite off width val s).mem ≠ s.mem) : s.busy = false ∧ width = .bits32 := by
  unfold busWrite at h
  split at h
  · next hserved =>
    obtain ⟨hwidth, hal⟩ := servedAccess_iff.mp hserved
    cases hostWrite_cases hal val s with
    | stored hbusy => exact ⟨hbusy, hwidth⟩
    | dropped hbusy heq => exact absurd (by rw [heq]) h
    | command hbusy hoff heq => exact absurd (by rw [heq]) h
    | ignored hbusy hoff hcmd heq => exact absurd (by rw [heq]) h
  · exact absurd rfl h

/-- Settles O55: of the cases of a step, only a host write and a reset reach the staging windows. -/
theorem instructionsLeaveTheHostSideAlone : Obligations.InstructionsLeaveTheHostSideAlone := by
  refine ⟨fun i s s' he => ?_, fun s s' hstep hmem => ?_⟩
  · obtain ⟨mem, busy, viol, pending, bus, resp, draws, variant⟩ := exec_kept he
    exact ⟨variant, mem, busy, viol, pending, bus, resp, draws⟩
  · cases step_cases hstep with
    | microOp u i t hissue hdec hexec heq =>
      exact absurd (by rw [heq, clearIssue_mem, (exec_kept hexec).mem]) hmem
    | command bus i t hissue hbusy hbus hdec hexec heq =>
      exact absurd (by rw [heq, endCommand_mem, (exec_kept hexec).mem]) hmem
    | illegal bus why hissue hbusy hbus hdec heq =>
      exact absurd (by rw [heq, endCommand_mem, (illegalWord_kept _).mem]) hmem
    | idle bus hissue hbusy hbus heq => exact absurd (by rw [heq]) hmem
    | read off width bus hissue hbus heq => exact absurd (by rw [heq, busRead_mem]) hmem
    | write off width val bus hissue hbus heq =>
      subst heq
      obtain ⟨hbusy, rfl⟩ := busWrite_mem_ne hmem
      exact ⟨hissue, .inr ⟨hbusy, off, val, by rw [hbus, List.head?_cons]⟩⟩
    | reset bus hissue hbus heq => exact ⟨hissue, .inl (by rw [hbus, List.head?_cons])⟩

end Sys2Proof.Machine
end

section
/-! PROOFS. The invariant of Safety.lean: it holds right after reset and every operation of the block keeps it
(10_state.md). A field that an operation leaves alone has the same clause after it, by `h with`; each lemma below
gives only the clauses that change. -/

namespace Sys2Proof.Machine

variable {s : State}

/-! ### Facts about single clauses -/

/-- R32: outside FAILED no error code stands. -/
theorem err_none_of_not_failed (h : s.Inv) (hp : s.phase ≠ .failed) : s.err = .none := by
  by_contra he
  exact hp (h.errPhase.mp he)

/-- UPDATE and FINAL work on a context that exists. -/
theorem live_of_accepting : ∀ {p : Phase}, p.accepting = true → p.live = true
  | .fresh, _ | .absorbing, _ => rfl

theorem accepting_ne_failed {p : Phase} (hp : p.accepting = true) : p ≠ .failed := by
  rintro rfl
  cases hp

theorem accepting_ne_finalized {p : Phase} (hp : p.accepting = true) : p ≠ .finalized := by
  rintro rfl
  cases hp

/-! ### Updates the invariant does not see -/

/-- No clause reads the bus, its answers, the pending word, the vector registers or the ALU's input. -/
theorem inv_frame (h : s.Inv) (bus : List BusEvent) (resp : BusResp) (draws : Nat) (pending : BitVec 32)
    (V : VFile s.variant) (issue : Option (BitVec 16)) :
    State.Inv { s with
      dp := { s.dp with vregs := V, seq := { s.dp.seq with issue := issue } }
      bus := bus
      resp := resp
      draws := draws
      pending := pending } :=
  { h with }

theorem inv_bus (h : s.Inv) (bus : List BusEvent) : State.Inv { s with bus := bus } :=
  inv_frame h bus s.resp s.draws s.pending s.dp.vregs s.dp.seq.issue

theorem setVregs_inv (h : s.Inv) (V : VFile s.variant) : (setVregs s V).Inv :=
  inv_frame h s.bus s.resp s.draws s.pending V s.dp.seq.issue

theorem clearIssue_inv (h : s.Inv) : (clearIssue s).Inv :=
  inv_frame h s.bus s.resp s.draws s.pending s.dp.vregs none

theorem busError_inv (h : s.Inv) : (busError s).Inv :=
  inv_frame h s.bus .error s.draws s.pending s.dp.vregs s.dp.seq.issue

/-! ### Reset, ABORT and the failure entry -/

/-- Settles O56: after reset the block is in NONE and every field is 0. -/
theorem resetSatisfiesTheInvariant : Obligations.ResetSatisfiesTheInvariant := fun v =>
  { memWf := ⟨.nil, by simp [State.resetOf]⟩
    memWindow := by simp [State.resetOf]
    errPhase := by simp [State.resetOf]
    nnLive := by simp [State.resetOf, Phase.live]
    nnDead := fun _ => rfl
    digTail := by simp [State.resetOf]
    digPhase := fun _ => rfl
    eqCmpv := by simp [State.resetOf]
    cmpvPhase := by simp [State.resetOf]
    erased := fun _ => ⟨rfl, rfl⟩
    noneCounter := fun _ => rfl
    freshCounter := by simp [State.resetOf]
    absorbingCounter := by simp [State.resetOf]
    bufTail := by simp [State.resetOf, Phase.accepting]
    seqIdle := ⟨rfl, rfl, rfl⟩
    violBusy := by simp [State.resetOf] }

theorem applyReset_inv (s : State) : (applyReset s).Inv :=
  inv_frame (resetSatisfiesTheInvariant s.variant) s.bus .idle s.draws 0 (VFile.zero s.variant) none

theorem abortState_inv (h : s.Inv) : (abortState s).Inv :=
  { h with
    errPhase := by simp
    nnLive := nofun
    nnDead := fun _ => rfl
    digTail := by simp
    digPhase := fun _ => rfl
    eqCmpv := by simp
    cmpvPhase := by simp
    erased := fun _ => ⟨rfl, rfl⟩
    noneCounter := fun _ => rfl
    freshCounter := by simp
    absorbingCounter := by simp
    bufTail := nofun }

/-- An error code stands after the failure entry: the first one, or the one just raised. -/
theorem fail_err_ne_none {code : ErrCode} (hc : code ≠ .none) : (fail code s).err ≠ .none := by
  rw [fail_err]
  split
  · exact hc
  · assumption

theorem fail_inv (h : s.Inv) {code : ErrCode} (hc : code ≠ .none) : (fail code s).Inv :=
  { h with
    errPhase := iff_of_true (fail_err_ne_none hc) rfl
    nnLive := nofun
    nnDead := fun _ => rfl
    digTail := by simp
    digPhase := fun _ => rfl
    eqCmpv := by simp
    cmpvPhase := by simp
    erased := fun _ => ⟨rfl, rfl⟩
    noneCounter := by simp
    freshCounter := by simp
    absorbingCounter := by simp
    bufTail := nofun }

/-! ### INIT -/

/-- A key takes a whole block (R171). -/
theorem fill_block (v : Variant) : fill v (BitVec.ofNat 64 v.bb) = v.bb := by cases v <;> decide

/-- R171: the first block holds the key, padded to a whole block; without a key it is empty. -/
theorem newContext_bufTail (nn kk : BitVec 7) (s : State) (j : Fin s.variant.bb)
    (hj : fill s.variant (newContext nn kk s).t ≤ j.val) : (newContext nn kk s).dp.buf[j] = 0 := by
  rw [newContext_t] at hj
  by_cases hk : kk = 0
  · subst hk
    exact Vector.getElem_ofFn (f := fun i => if i.val < 0 then keyByte s i.val else 0) j.isLt
  · rw [if_neg hk, fill_block] at hj
    exact absurd j.isLt (Nat.not_lt.mpr hj)

/-- R170, R171: a context is set up on a dropped one, with operands in their bounds. -/
theorem newContext_inv (h : s.Inv) {nn kk : BitVec 7} (hok : initOperandsOk s.variant nn kk = true) :
    (newContext nn kk (abortState s)).Inv := by
  obtain ⟨hnn, hmax, -⟩ := of_decide_eq_true hok
  exact
    { abortState_inv h with
      errPhase := iff_of_false (fun hne => hne rfl) nofun
      nnLive := fun _ => ⟨hnn, hmax⟩
      nnDead := nofun
      digTail := by simp
      digPhase := fun _ => rfl
      cmpvPhase := nofun
      erased := nofun
      noneCounter := nofun
      freshCounter := fun _ => by
        rw [newContext_t]
        exact ite_eq_or_eq _ _ _
      absorbingCounter := nofun
      bufTail := fun _ => newContext_bufTail nn kk (abortState s) }

theorem execInit_inv (h : s.Inv) {nn kk : BitVec 7} {s' : State} (he : execInit nn kk s = .next s') : s'.Inv := by
  unfold execInit at he
  split at he <;> cases he
  · exact newContext_inv h ‹_›
  · exact fail_inv (abortState_inv h) (by decide)

/-! ### UPDATE -/

/-- The block buffer is zero from position `n` on: the clause `bufTail` of the invariant at position `n`. -/
def BufZeroFrom (s : State) (n : Nat) : Prop := ∀ j : Fin s.variant.bb, n ≤ j.val → s.dp.buf[j] = 0

theorem bufZeroFrom_clearBuf (s : State) (n : Nat) : BufZeroFrom (clearBuf s) n := fun j _ =>
  Vector.getElem_replicate j.isLt

/-- R176: a full block that is compressed leaves an empty buffer, and the sequencer idle. -/
theorem flushFull_inv (h : s.Inv) (hp : s.phase.accepting = true) : (flushFull s).Inv := by
  by_cases hfull : fill s.variant s.t = s.variant.bb
  · rw [flushFull_of_full hfull]
    exact
      { h with
        erased := fun hdead => absurd (live_of_accepting hp) (by simpa using hdead)
        bufTail := fun _ => bufZeroFrom_clearBuf (compressState false s) _
        seqIdle := ⟨rfl, rfl, rfl⟩ }
  · rwa [flushFull_of_not_full hfull]

theorem flushFull_phase (s : State) : (flushFull s).phase = s.phase := by
  unfold flushFull
  split <;> rfl

theorem flushFull_t (s : State) : (flushFull s).t = s.t := by
  unfold flushFull
  split <;> rfl

/-- R176: once a full block is out of the way, the buffer is zero from the next byte's position on. -/
theorem bufZeroFrom_flushFull (h : s.Inv) (hp : s.phase.accepting = true) :
    BufZeroFrom (flushFull s) (s.t.toNat % s.variant.bb) := by
  by_cases hfull : fill s.variant s.t = s.variant.bb
  · rw [flushFull_of_full hfull]
    exact bufZeroFrom_clearBuf _ _
  · rw [flushFull_of_not_full hfull, mod_eq_fill s.variant (Nat.lt_of_le_of_ne (fill_le _ _) hfull)]
    exact h.bufTail hp

/-- R176: a byte is stored at the first position of the zeros. -/
theorem bufZeroFrom_storeByte (hz : BufZeroFrom s (s.t.toNat % s.variant.bb)) (b : Byte) :
    BufZeroFrom (storeByte b s) (s.t.toNat % s.variant.bb + 1) := by
  intro j hj
  have hne : s.t.toNat % s.variant.bb ≠ j.val := by omega
  exact (Vector.getElem_set_ne (Nat.mod_lt _ s.variant.bb_pos) j.isLt hne).trans (hz j (by omega))

theorem add_one_ne_zero {t : BitVec 64} (h : t ≠ BitVec.allOnes 64) : t + 1 ≠ 0 := by
  intro h0
  exact h (by rw [← BitVec.neg_one_eq_allOnes]; exact eq_neg_of_add_eq_zero_left h0)

/-- R176, R178: one byte is stored, the counter below its limit. -/
theorem storeByte_inv (h : s.Inv) (hp : s.phase.accepting = true) (ht : s.t ≠ BitVec.allOnes 64)
    (hz : BufZeroFrom s (s.t.toNat % s.variant.bb)) (b : Byte) : (storeByte b s).Inv :=
  have herr := err_none_of_not_failed h (accepting_ne_failed hp)
  have hnn := h.nnLive (live_of_accepting hp)
  have hfinal := accepting_ne_finalized hp
  { h with
    errPhase := iff_of_false (fun hne => hne herr) nofun
    nnLive := fun _ => hnn
    nnDead := nofun
    digPhase := fun _ => h.digPhase hfinal
    cmpvPhase := fun hc => absurd (h.cmpvPhase hc) hfinal
    erased := nofun
    noneCounter := nofun
    freshCounter := nofun
    absorbingCounter := fun _ => add_one_ne_zero ht
    bufTail := fun _ j hj => bufZeroFrom_storeByte hz b j (fill_succ s.variant ht ▸ hj) }

/-- R175 to R178: absorbing bytes, up to the counter's limit. -/
theorem absorbBytes_inv (bs : List Byte) (h : s.Inv) (hp : s.phase.accepting = true) : (absorbBytes bs s).Inv := by
  induction bs generalizing s with
  | nil => exact h
  | cons b bs ih =>
    rw [absorbBytes_cons]
    split
    · exact fail_inv h (by decide)
    · next ht =>
      refine ih (storeByte_inv (flushFull_inv h hp) ?_ ?_ ?_ b) rfl
      · rwa [flushFull_phase]
      · rwa [flushFull_t]
      · rw [flushFull_t, (flushFull_kept s).variant]
        exact bufZeroFrom_flushFull h hp

theorem execUpdate_inv (h : s.Inv) {len : BitVec 8} {s' : State} (he : execUpdate len s = .next s') : s'.Inv := by
  unfold execUpdate at he
  have hbytes := absorbBytes_inv (dinBytes s len.toNat) h
  split at he
  case h_1 =>
    cases he
    exact h
  case h_2 | h_3 =>
    cases he
    exact fail_inv h (by decide)
  case h_4 hphase | h_5 hphase =>
    split at he <;> cases he
    · exact hbytes (by rw [hphase]; rfl)
    · exact fail_inv h (by decide)

/-! ### FINAL and COMPARE -/

/-- R200: the digest register is zero from `nn` on. -/
theorem digestOf_tail {v : Variant} (nn : BitVec 7) (hv : Vector (Word v) 8) (k : Fin 64) (hk : nn.toNat ≤ k.val) :
    (digestOf nn hv)[k] = 0 := by
  simp [digestOf, Nat.not_lt.mpr hk]

theorem finalize_inv (h : s.Inv) (hp : s.phase.accepting = true) : (finalize s).Inv :=
  have herr := err_none_of_not_failed h (accepting_ne_failed hp)
  have hnn := h.nnLive (live_of_accepting hp)
  { h with
    errPhase := iff_of_false (fun hne => hne herr) nofun
    nnLive := fun _ => hnn
    nnDead := nofun
    digTail := digestOf_tail s.nn _
    digPhase := fun hne => absurd rfl hne
    eqCmpv := nofun
    cmpvPhase := nofun
    erased := nofun
    noneCounter := nofun
    freshCounter := nofun
    absorbingCounter := nofun
    bufTail := nofun
    seqIdle := ⟨rfl, rfl, rfl⟩ }

theorem execFinal_inv (h : s.Inv) {s' : State} (he : execFinal s = .next s') : s'.Inv := by
  unfold execFinal at he
  split at he <;> cases he
  case h_1 => exact h
  case h_2 | h_3 => exact fail_inv h (by decide)
  case h_4 hphase | h_5 hphase => exact finalize_inv h (by rw [hphase]; rfl)

/-- R205: COMPARE answers in FINALIZED only, and sets `CMPV` with `EQ`. -/
theorem execCompare_inv (h : s.Inv) {len : BitVec 8} {s' : State} (he : execCompare len s = .next s') : s'.Inv := by
  unfold execCompare at he
  split at he <;> cases he
  case h_1 => exact h
  case h_2 | h_3 | h_4 => exact fail_inv h (by decide)
  case h_5 hphase => exact { h with eqCmpv := fun _ => rfl, cmpvPhase := fun _ => hphase }

/-! ### Every instruction -/

theorem exec_inv (h : s.Inv) {i : Instr} {s' : State} (he : exec i s = .next s') : s'.Inv := by
  rcases exec_command_or_setVregs he with
    ⟨nn, kk, rfl⟩ | ⟨len, rfl⟩ | rfl | ⟨len, rfl⟩ | rfl | ⟨V, rfl⟩
  · exact execInit_inv h he
  · exact execUpdate_inv h he
  · exact execFinal_inv h he
  · exact execCompare_inv h he
  · cases he
    exact abortState_inv h
  · exact setVregs_inv h V

/-! ### The engine -/

theorem illegalWord_inv (h : s.Inv) : (illegalWord s).Inv := by
  unfold illegalWord
  split
  · exact h
  all_goals exact fail_inv h (by decide)

/-- R225, R256: the handshake ends, with BUSY raised first where a violation is recorded. -/
theorem endCommand_inv (h : s.Inv) : (endCommand s).Inv := by
  have hend : ∀ {t : State}, t.Inv → State.Inv { t with viol := false, busy := false } :=
    fun ht => { ht with violBusy := nofun }
  unfold endCommand
  split
  · exact hend (fail_inv h (by decide))
  · exact hend h

/-! ### The host bus -/

/-- R72: a word stored at an aligned offset of the staging windows stays within them. -/
theorem store_inv (h : s.Inv) {a : Nat} (hal : a % 4 = 0) (hlo : keyBase ≤ a) (hhi : a < digestBase)
    (val : BitVec 32) : State.Inv { s with mem := Memory.storeWord s.mem a val } :=
  { h with
    memWf := memory_storeWord_wf h.memWf a val
    memWindow := fun c hc => by
      rcases memory_storeWord_cells hc with hc | hc
      · exact h.memWindow c hc
      · unfold keyBase digestBase at *
        omega }

theorem hostWrite_inv (h : s.Inv) {off : BitVec 12} (hal : off.toNat % 4 = 0) (val : BitVec 32) :
    (hostWrite off val s).Inv := by
  cases hostWrite_cases hal val s with
  | dropped hbusy heq =>
    rw [heq]
    exact { h with violBusy := fun _ => hbusy }
  | command hbusy hoff heq =>
    rw [heq]
    exact { h with violBusy := nofun }
  | stored hbusy hlo hhi heq =>
    rw [heq]
    exact { store_inv h hal hlo hhi val with }
  | ignored hbusy hoff hcmd heq =>
    rw [heq]
    exact { h with }

theorem busWrite_inv (h : s.Inv) (off : BitVec 12) (width : AccessWidth) (val : BitVec 32) :
    (busWrite off width val s).Inv := by
  unfold busWrite
  split
  · next hserved => exact hostWrite_inv h (servedAccess_iff.mp hserved).2 val
  · exact busError_inv h

theorem hostRead_inv (h : s.Inv) (off : BitVec 12) : (hostRead off s).Inv := by
  obtain ⟨word, draws, heq⟩ := hostRead_frame off s
  rw [heq]
  exact { h with }

theorem busRead_inv (h : s.Inv) (off : BitVec 12) (width : AccessWidth) : (busRead off width s).Inv := by
  unfold busRead
  split
  · exact hostRead_inv h off
  · exact busError_inv h

/-! ### Every step -/

/-- Settles O57: a step is one of the cases of `step_cases`, and each of its operations keeps the invariant. -/
theorem stepKeepsTheInvariant : Obligations.StepKeepsTheInvariant := by
  intro s s' h hstep
  cases step_cases hstep with
  | microOp u i t hissue hdec hexec heq =>
    rw [heq]
    exact clearIssue_inv (exec_inv h hexec)
  | command bus i t hissue hbusy hbus hdec hexec heq =>
    rw [heq]
    exact endCommand_inv (exec_inv (inv_bus h bus) hexec)
  | illegal bus why hissue hbusy hbus hdec heq =>
    rw [heq]
    exact endCommand_inv (illegalWord_inv (inv_bus h bus))
  | idle bus hissue hbusy hbus heq =>
    rw [heq]
    exact inv_bus h bus
  | read off width bus hissue hbus heq =>
    rw [heq]
    exact busRead_inv (inv_bus h bus) off width
  | write off width val bus hissue hbus heq =>
    rw [heq]
    exact busWrite_inv (inv_bus h bus) off width val
  | reset bus hissue hbus heq =>
    rw [heq]
    exact applyReset_inv _

end Sys2Proof.Machine
end

section
/-! PROOFS. What the registers read with the block not busy, field by field (R40 to R44, R203), and the reset values
(R50). -/

namespace Sys2Proof.Machine

variable {s : State}

/-- With the block not busy a read answers the register at its offset. -/
theorem hostRead_resp_of_not_busy (off : BitVec 12) (h : s.busy = false) :
    (hostRead off s).resp = .data (readReg s (hostReg off)) := by
  simp [hostRead, h]

/-! ### DLEN and COUNT -/

/-- R43, R203: DLEN goes by whether a context exists. -/
theorem dlenWord_eq (s : State) : dlenWord s = if s.phase.live then BitVec.ofNat 32 s.nn.toNat else 0 := by
  unfold dlenWord
  split <;> simp [*, Phase.live]

/-- R44: COUNT_LO is the counter's low half. -/
theorem countLo_eq (t : BitVec 64) : t.setWidth 32 = BitVec.ofNat 32 (t.toNat % 2 ^ 32) := by
  apply BitVec.eq_of_toNat_eq
  simp

/-- R44: COUNT_HI is the counter's high half. -/
theorem countHi_eq (t : BitVec 64) : (t >>> 32).setWidth 32 = BitVec.ofNat 32 (t.toNat / 2 ^ 32) := by
  apply BitVec.eq_of_toNat_eq
  simp [Nat.shiftRight_eq_div_pow]

/-- Settles O46: each offset's register, and the word it reads. -/
theorem plainRegistersRead : Obligations.PlainRegistersRead := by
  intro s hbusy
  simp only [hostRead_resp_of_not_busy _ hbusy]
  refine ⟨?_, rfl, ?_, ?_, ?_⟩
  · exact congrArg BusResp.data (idWord_eq s.variant)
  · exact congrArg BusResp.data (dlenWord_eq s)
  · exact congrArg BusResp.data (countLo_eq s.t)
  · exact congrArg BusResp.data (countHi_eq s.t)

/-! ### STATUS -/

/-- A field above `n` lower bits counts `2 ^ n` times. -/
theorem toNat_append_eq_add {m n : Nat} (x : BitVec m) (y : BitVec n) :
    (x ++ y).toNat = 2 ^ n * x.toNat + y.toNat := by
  rw [BitVec.toNat_append, ← Nat.shiftLeft_add_eq_or_of_lt y.isLt, Nat.shiftLeft_eq, Nat.mul_comm]

/-- R42: STATUS as the sum of its fields at their places. -/
theorem statusWord_toNat (s : State) :
    (statusWord s).toNat =
      2 ^ 16 * (statusFill s).toNat + 2 ^ 8 * s.err.code.toNat + 2 ^ 5 * s.cmpv.toNat + 2 ^ 4 * s.eq.toNat +
        2 ^ 3 * s.busy.toNat + s.phase.code.toNat := by
  simp only [statusWord, toNat_append_eq_add, BitVec.toNat_ofBool, BitVec.toNat_ofNat]
  omega

theorem getLsbD_eq_of_toNat {n : Nat} {x : BitVec n} {i : Nat} {b : Bool} (h : x.toNat / 2 ^ i % 2 = b.toNat) :
    x.getLsbD i = b := by
  rw [← BitVec.testBit_toNat, Nat.testBit_eq_decide_div_mod_eq, h]
  cases b <;> rfl

theorem bb_le (v : Variant) : v.bb ≤ 128 := by cases v <;> decide

/-- R26, R42: the fill fits FILL, which shows it while bytes are taken. -/
theorem statusFill_toNat (s : State) :
    (statusFill s).toNat = if s.phase.accepting then fill s.variant s.t else 0 := by
  have hfit : (BitVec.ofNat 8 (fill s.variant s.t)).toNat = fill s.variant s.t := by
    rw [BitVec.toNat_ofNat]
    have := fill_le s.variant s.t
    have := bb_le s.variant
    omega
  unfold statusFill
  split <;> simp [*, Phase.accepting]

theorem fill_eq_toNat (v : Variant) (t : BitVec 64) :
    fill v t = if t.toNat = 0 then 0 else (t.toNat - 1) % v.bb + 1 := by
  simp [fill, BitVec.toNat_eq]

/-- R42: the one-bit fields of STATUS with the block not busy. -/
theorem statusWord_bits (h : s.busy = false) :
    (statusWord s).getLsbD 3 = false ∧ (statusWord s).getLsbD 4 = s.eq ∧ (statusWord s).getLsbD 5 = s.cmpv := by
  have hsum := statusWord_toNat s
  rw [h, Bool.toNat_false] at hsum
  have hphase := s.phase.code.isLt
  have heq := s.eq.toNat_lt
  have hcmpv := s.cmpv.toNat_lt
  refine ⟨getLsbD_eq_of_toNat ?_, getLsbD_eq_of_toNat ?_, getLsbD_eq_of_toNat ?_⟩
  · rw [Bool.toNat_false]
    omega
  · omega
  · omega

/-- R42: the wider fields of STATUS, and the zeros between and above them. -/
theorem statusWord_fields (s : State) :
    (statusWord s).toNat % 8 = s.phase.code.toNat ∧ ((statusWord s).toNat >>> 6) % 4 = 0 ∧
    ((statusWord s).toNat >>> 8) % 16 = s.err.code.toNat ∧ ((statusWord s).toNat >>> 12) % 16 = 0 ∧
    ((statusWord s).toNat >>> 16) % 256 = (statusFill s).toNat ∧ (statusWord s).toNat >>> 24 = 0 := by
  have hsum := statusWord_toNat s
  have hphase := s.phase.code.isLt
  have hbusy := s.busy.toNat_lt
  have heq := s.eq.toNat_lt
  have hcmpv := s.cmpv.toNat_lt
  have herr := s.err.code.isLt
  have hfill := (statusFill s).isLt
  simp only [Nat.shiftRight_eq_div_pow]
  refine ⟨?_, ?_, ?_, ?_, ?_, ?_⟩ <;> omega

/-- Settles O47: with the block not busy the word is `statusWord`, whose fields are cut out of their sum; while busy,
bit 3 of the drawn word is forced to 1. -/
theorem statusShowsItsFields : Obligations.StatusShowsItsFields := by
  refine ⟨fun s hbusy => ?_, fun s hbusy => ?_⟩
  · obtain ⟨hphase, hzero6, herr, hzero12, hfill, hzero24⟩ := statusWord_fields s
    obtain ⟨hbit3, hbit4, hbit5⟩ := statusWord_bits hbusy
    refine ⟨statusWord s, hostRead_resp_of_not_busy _ hbusy, hphase.trans ?_, hbit3, hbit4, hbit5, hzero6,
      herr.trans ?_, hzero12, hfill.trans ?_, hzero24⟩
    · cases s.phase <;> rfl
    · cases s.err <;> rfl
    · rw [statusFill_toNat, fill_eq_toNat]
  · refine ⟨Config.freeRead s.draws ||| busyBit, ?_, ?_⟩
    · simp only [hostRead, hbusy]
      rfl
    · simp [busyBit]

/-! ### Reset -/

/-- R74: of the aligned offsets, 0 alone is ID's. -/
theorem eq_zero_of_hostReg_id {off : BitVec 12} (hal : off.toNat % 4 = 0) (h : hostReg off = .id) : off = 0 := by
  rcases Nat.lt_or_ge off.toNat 0x018 with hlow | hhigh
  · rcases hostReg_low hlow hal with ⟨h0, -⟩ | ⟨-, hr⟩ | ⟨-, hr⟩ | ⟨-, hr⟩ | ⟨-, hr⟩ | ⟨-, hr⟩
    · exact BitVec.eq_of_toNat_eq h0
    all_goals simp [hr] at h
  · rw [hostReg_high hhigh] at h
    split_ifs at h

/-- After reset every register but ID reads 0. -/
theorem readReg_resetOf (v : Variant) {r : HostReg} (hr : r ≠ .id) : readReg (State.resetOf v) r = 0 := by
  cases r with
  | id => exact absurd rfl hr
  | status => cases v <;> decide
  | cmd | dlen | countLo | key | din | ref | digest | reserved => rfl
  | countHi => exact countHi_eq 0

/-- Settles O53: the fields are those `State.resetOf` writes out, and no register but ID reads anything else than 0. -/
theorem resetValues : Obligations.ResetValues := by
  intro v
  refine ⟨⟨rfl, rfl, ?_, ?_, rfl, rfl, ?_, rfl, rfl, rfl, rfl, rfl, rfl, fun _ => rfl, ?_, rfl⟩, ?_, ?_⟩
  · exact fun i => Vector.getElem_replicate i.isLt
  · exact fun j => Vector.getElem_replicate j.isLt
  · exact fun k => Vector.getElem_replicate k.isLt
  · intro r j
    cases r <;> fin_cases j <;> rfl
  · rw [hostRead_resp_of_not_busy _ rfl]
    exact congrArg BusResp.data (idWord_eq v)
  · intro off hal hoff
    rw [hostRead_resp_of_not_busy _ rfl, readReg_resetOf v fun h => hoff (eq_zero_of_hostReg_id hal h)]

end Sys2Proof.Machine
end

section
/-! PROOFS. The host's accesses to the register window (20_memory.md): the step that serves one, what a served write
does in each case, and which offsets a read is answered from. -/

namespace Sys2Proof.Machine

/-! ### The step that takes an event, and the accesses it serves (R62, R63) -/

theorem step_of_event {s : State} {e : BusEvent} {rest : List BusEvent} (hissue : NoIssue s)
    (hbus : s.bus = e :: rest) : step s = takeEvent e { s with bus := rest } :=
  (step_of_noIssue hissue).trans (nextEvent_cons hbus)

theorem busWrite_served {off : BitVec 12} (hal : off.toNat % 4 = 0) (val : BitVec 32) (s : State) :
    busWrite off .bits32 val s = hostWrite off val s :=
  if_pos (servedAccess_iff.mpr ⟨rfl, hal⟩)

theorem busRead_served {off : BitVec 12} (hal : off.toNat % 4 = 0) (s : State) :
    busRead off .bits32 s = hostRead off s :=
  if_pos (servedAccess_iff.mpr ⟨rfl, hal⟩)

theorem not_servedAccess {off : BitVec 12} {width : AccessWidth} (h : width ≠ .bits32 ∨ off.toNat % 4 ≠ 0) :
    ¬ servedAccess off width = true := by
  rw [servedAccess_iff]
  tauto

/-- R62: the step of an aligned 32-bit write is `hostWrite`, after the event has left the bus. -/
theorem step_of_write {s : State} {off : BitVec 12} {val : BitVec 32} {rest : List BusEvent} (hissue : NoIssue s)
    (hal : off.toNat % 4 = 0) (hbus : s.bus = .write off .bits32 val :: rest) :
    step s = .next (hostWrite off val { s with bus := rest }) := by
  rw [step_of_event hissue hbus, takeEvent, busWrite_served hal]

/-- Settles O44: neither kind of access is served, and what is not served is a bus error. -/
theorem badAccessesGetABusError : Obligations.BadAccessesGetABusError := by
  intro s rest off width val hissue hbad hbus
  have hserved := not_servedAccess hbad
  rcases hbus with hbus | hbus <;> rw [step_of_event hissue hbus]
  · exact congrArg Host.Outcome.next (if_neg hserved)
  · exact congrArg Host.Outcome.next (if_neg hserved)

/-! ### Writes -/

/-- R258: while busy a served write is dropped and recorded. -/
theorem hostWrite_of_busy {s : State} (off : BitVec 12) (val : BitVec 32) (h : s.busy = true) :
    hostWrite off val s = { s with viol := true, resp := .ack } :=
  if_pos h

/-- R72: with the block not busy a write to a staging window stores its word. -/
theorem hostWrite_window {s : State} {off : BitVec 12} (hal : off.toNat % 4 = 0) (hlo : 0x040 ≤ off.toNat)
    (hhi : off.toNat < 0x140) (val : BitVec 32) (h : s.busy = false) :
    hostWrite off val s = { s with mem := Memory.storeWord s.mem off.toNat val, resp := .ack } := by
  cases hostWrite_cases hal val s with
  | stored _ _ _ heq => exact heq
  | dropped hbusy => simp [h] at hbusy
  | command _ hoff => omega
  | ignored _ hoff =>
    unfold keyBase digestBase at hoff
    omega

/-- R46, R68: with the block not busy a write to any other offset but CMD's leaves everything but the answer. -/
theorem hostWrite_ignored {s : State} {off : BitVec 12} (hal : off.toNat % 4 = 0) (hcmd : off.toNat ≠ 0x004)
    (hoff : off.toNat < 0x040 ∨ 0x140 ≤ off.toNat) (val : BitVec 32) (h : s.busy = false) :
    hostWrite off val s = { s with resp := .ack } := by
  cases hostWrite_cases hal val s with
  | ignored _ _ _ heq => exact heq
  | dropped hbusy => simp [h] at hbusy
  | command _ hoff => exact absurd hoff hcmd
  | stored _ hlo hhi =>
    unfold keyBase at hlo
    unfold digestBase at hhi
    omega

theorem hostWrite_resp {off : BitVec 12} (hal : off.toNat % 4 = 0) (val : BitVec 32) (s : State) :
    (hostWrite off val s).resp = .ack := by
  cases hostWrite_cases hal val s with
  | dropped _ heq | command _ _ heq | stored _ _ _ heq | ignored _ _ _ heq => rw [heq]

/-- R69, R255: of the writes to an idle block, only one served at CMD's offset makes it busy. -/
theorem busWrite_starts {off : BitVec 12} {width : AccessWidth} {val : BitVec 32} {s : State} (hidle : s.busy = false)
    (h : (busWrite off width val s).busy = true) :
    width = .bits32 ∧ off = 0x004 ∧ (busWrite off width val s).pending = val ∧
      (busWrite off width val s).bus = s.bus := by
  by_cases hserved : servedAccess off width = true
  · obtain ⟨rfl, hal⟩ := servedAccess_iff.mp hserved
    rw [busWrite_served hal] at h ⊢
    cases hostWrite_cases hal val s with
    | command _ hoff heq =>
      rw [heq]
      exact ⟨rfl, BitVec.eq_of_toNat_eq hoff, rfl, rfl⟩
    | dropped hbusy => simp [hidle] at hbusy
    | stored _ _ _ heq | ignored _ _ _ heq => simp [heq, hidle] at h
  · rw [busWrite, if_neg hserved, busError_busy, hidle] at h
    cases h

/-- Settles O42: away from CMD and the staging windows only the answer changes, and the answer to every served write
is an acknowledge. -/
theorem writesToReadOnlyOffsetsAreIgnored : Obligations.WritesToReadOnlyOffsetsAreIgnored := by
  refine ⟨fun s rest off val hissue hidle hal hcmd hoff hbus => ?_, fun s rest off val hissue hal hbus => ?_⟩
  · have hcmd : off.toNat ≠ 0x004 := fun h => hcmd (BitVec.eq_of_toNat_eq h)
    rw [step_of_write hissue hal hbus, hostWrite_ignored (s := { s with bus := rest }) hal hcmd hoff val hidle]
  · exact ⟨_, step_of_write hissue hal hbus, hostWrite_resp hal val _⟩

/-- Settles O43: the write stores its word with `storeWord`, whose bytes, frame and canonical form are laws of the
memory. -/
theorem windowWritesStoreFourBytes : Obligations.WindowWritesStoreFourBytes := by
  intro s rest off val hissue hal hlo hhi hbus
  rw [step_of_write hissue hal hbus]
  refine ⟨fun hidle => ⟨Memory.storeWord s.mem off.toNat val, .ack, ?_, fun i hi => ?_, fun a ha => ?_, fun hwf => ?_⟩,
    fun hbusy => ⟨.ack, ?_⟩⟩
  · rw [hostWrite_window (s := { s with bus := rest }) hal hlo hhi val hidle]
  · rw [memory_read_storeWord_inside _ _ _ hi, byteOf_toNat]
  · exact memory_read_storeWord_outside _ _ ha
  · exact memory_storeWord_wf hwf _ _
  · rw [hostWrite_of_busy (s := { s with bus := rest }) off val hbusy]

/-! ### Reads -/

/-- R69: a read of any width leaves everything but the answer and the count of free values. -/
theorem busRead_frame (off : BitVec 12) (width : AccessWidth) (s : State) :
    ∃ resp draws, busRead off width s = { s with resp := resp, draws := draws } := by
  unfold busRead
  split
  · obtain ⟨word, draws, heq⟩ := hostRead_frame off s
    exact ⟨.data word, draws, heq⟩
  · exact ⟨.error, s.draws, rfl⟩

@[simp] theorem busRead_busy (off : BitVec 12) (width : AccessWidth) (s : State) :
    (busRead off width s).busy = s.busy := by
  obtain ⟨resp, draws, heq⟩ := busRead_frame off width s
  rw [heq]

/-- Settles O45: the step of a read is `busRead`, which is `hostRead` where it is served. -/
theorem readsHaveNoSideEffect : Obligations.ReadsHaveNoSideEffect := by
  intro s rest off width hissue hbus
  rw [step_of_event hissue hbus, takeEvent]
  refine ⟨?_, ?_⟩
  · obtain ⟨resp, draws, heq⟩ := busRead_frame off width { s with bus := rest }
    exact ⟨resp, draws, congrArg Host.Outcome.next heq⟩
  · rintro rfl hal
    rw [busRead_served hal]

/-- Settles O41: of the cases of a step from an idle block, only a write can end busy. -/
theorem onlyCommandWritesStartCommands : Obligations.OnlyCommandWritesStartCommands := by
  intro s s' hstep hidle hbusy'
  cases step_cases hstep with
  | write off width val bus hissue hbus heq =>
    subst heq
    obtain ⟨rfl, rfl, hpending, hrest⟩ := busWrite_starts (s := { s with bus := bus }) hidle hbusy'
    exact ⟨val, bus, hbus, hpending, hrest⟩
  | microOp u i t hissue hdec hexec heq => simp [heq, (exec_kept hexec).busy, hidle] at hbusy'
  | command _ _ _ _ hbusy | illegal _ _ _ hbusy => simp [hidle] at hbusy
  | idle bus hissue _ hbus heq => simp [heq, hidle] at hbusy'
  | read off width bus hissue hbus heq => simp [heq, hidle] at hbusy'
  | reset bus hissue hbus heq => simp [heq] at hbusy'

/-! ### Bytes of a word (R64) -/

/-- The digits to the base 256 of a little-endian number are its bytes. -/
theorem leNat_byte (bs : List Byte) (i : Nat) : (leNat bs >>> (8 * i)) % 256 = (bs.getD i 0).toNat := by
  induction bs generalizing i with
  | nil => simp [leNat]
  | cons b bs ih =>
    have hb := b.isLt
    cases i with
    | zero =>
      simp only [leNat, Nat.mul_zero, Nat.shiftRight_zero, List.getD_cons_zero]
      omega
    | succ i =>
      have hdrop : (b.toNat + 256 * leNat bs) >>> 8 = leNat bs := by
        rw [Nat.shiftRight_eq_div_pow]
        omega
      rw [leNat, Nat.mul_succ, Nat.add_comm (8 * i), Nat.shiftRight_add, hdrop, ih, List.getD_cons_succ]

theorem loadWord_toNat (m : Memory) (a : Nat) :
    (Memory.loadWord m a).toNat = leNat ((List.range 4).map fun k => Memory.read m (a + k)) := by
  have hlt := leNat_lt ((List.range 4).map fun k => Memory.read m (a + k))
  rw [List.length_map, List.length_range] at hlt
  exact (BitVec.toNat_ofNat _ _).trans (Nat.mod_eq_of_lt (hlt.trans_eq (by decide)))

theorem loadWord_byte (m : Memory) (a : Nat) {i : Nat} (hi : i < 4) :
    ((Memory.loadWord m a).toNat >>> (8 * i)) % 256 = (Memory.read m (a + i)).toNat := by
  rw [loadWord_toNat, leNat_byte]
  simp [List.getD, hi]

theorem loadWord_congr {m m' : Memory} {a : Nat} (h : ∀ b, a ≤ b → Memory.read m b = Memory.read m' b) :
    Memory.loadWord m a = Memory.loadWord m' a := by
  unfold Memory.loadWord
  rw [h a (by omega), h (a + 1) (by omega), h (a + 2) (by omega), h (a + 3) (by omega)]

/-! ### What a read answers -/

/-- R73, R259: a register whose value is specified while busy answers the same busy or not. -/
theorem hostRead_resp_of_specified {off : BitVec 12} {r : HostReg} (hreg : hostReg off = r)
    (h : r.unspecifiedWhileBusy = false) (s : State) : (hostRead off s).resp = .data (readReg s r) := by
  simp [hostRead, hreg, h]

/-- R73: DIN and REF read the word that stands at their offset. -/
theorem hostRead_resp_din_ref {off : BitVec 12} (hlo : 0x080 ≤ off.toNat) (hhi : off.toNat < 0x140) (s : State) :
    (hostRead off s).resp = .data (Memory.loadWord s.mem off.toNat) := by
  rcases Nat.lt_or_ge off.toNat 0x100 with h | h
  · exact hostRead_resp_of_specified (hostReg_din hlo h) rfl s
  · exact hostRead_resp_of_specified (hostReg_ref h hhi) rfl s

/-- Settles O48: each offset's register is one whose value is specified while busy. -/
theorem stagingWindowsRead : Obligations.StagingWindowsRead := by
  intro s off hal
  refine ⟨fun hlo hhi => ?_, fun hoff => ?_, fun hlo hhi => ?_⟩
  · exact hostRead_resp_of_specified (hostReg_key hlo hhi) rfl s
  · exact hostRead_resp_of_specified (hostReg_reserved hoff) rfl s
  · exact ⟨_, hostRead_resp_din_ref hlo hhi s, fun i hi => loadWord_byte s.mem off.toNat hi⟩

/-! ### What no read depends on (R71, R240) -/

/-- R74: the windows that read the staging memory begin above KEY. -/
theorem hostReg_din_ref_bound {off : BitVec 12} (hal : off.toNat % 4 = 0) {a : Nat}
    (h : hostReg off = .din a ∨ hostReg off = .ref a) : 0x080 ≤ a := by
  rcases Nat.lt_or_ge off.toNat 0x018 with hlow | hhigh
  · rcases hostReg_low hlow hal with ⟨-, hr⟩ | ⟨-, hr⟩ | ⟨-, hr⟩ | ⟨-, hr⟩ | ⟨-, hr⟩ | ⟨-, hr⟩ <;> simp [hr] at h
  · rw [hostReg_high hhigh] at h
    split_ifs at h <;> simp at h <;> omega

/-- R71: the register at an offset reads neither the KEY window's bytes nor the datapath. -/
theorem readReg_congr {s : State} {mem : Memory} (dp : Datapath s.variant)
    (h : ∀ a, a < 0x040 ∨ 0x080 ≤ a → Memory.read mem a = Memory.read s.mem a) {off : BitVec 12}
    (hal : off.toNat % 4 = 0) :
    readReg { s with mem := mem, dp := dp } (hostReg off) = readReg s (hostReg off) := by
  have hload : ∀ a, 0x080 ≤ a → Memory.loadWord mem a = Memory.loadWord s.mem a :=
    fun a ha => loadWord_congr fun b hb => h b (.inr (ha.trans hb))
  cases hreg : hostReg off with
  | din a => exact hload a (hostReg_din_ref_bound hal (.inl hreg))
  | ref a => exact hload a (hostReg_din_ref_bound hal (.inr hreg))
  | id | cmd | status | dlen | countLo | countHi | key | digest | reserved => rfl

/-- Settles O51: a read answers a bus error, a drawn value that depends on the count of draws alone, or `readReg`. -/
theorem readsRevealNoKey : Obligations.ReadsRevealNoKey := by
  intro s mem dp off width h
  unfold busRead
  split
  · next hserved =>
    unfold hostRead
    split
    · cases hostReg off <;> rfl
    · exact congrArg BusResp.data (readReg_congr dp h (servedAccess_iff.mp hserved).2)
  · rfl

/-! ### The window on the host bus (R60) -/

/-- Settles O52: `windowOffset` subtracts the base exactly on the 4096 addresses from the base on. -/
theorem windowIsFourKibibytes : Obligations.WindowIsFourKibibytes := by
  refine ⟨Nat.mul_mod_right _ _, fun off => ?_, fun addr haddr => ?_⟩
  · have hlt := off.isLt
    rw [windowOffset, if_pos (by omega), Nat.add_sub_cancel_left, BitVec.ofNat_toNat, BitVec.setWidth_eq]
  · exact if_neg (by omega)

end Sys2Proof.Machine
end

section
/-! PROOFS. The fields of a code word: what the encoder puts at a place is what the decoder reads there, and a mask of
the match/mask tables keeps whole fields (30_encoding.md). -/

namespace Sys2Proof

/-! ### Register fields (R102) -/

@[simp] theorem VReg.ofBits_bits (r : VReg) : VReg.ofBits r.bits = some r := by cases r <;> rfl

theorem VReg.bits_of_ofBits {b : BitVec 3} {r : VReg} (h : VReg.ofBits b = some r) : b = r.bits := by
  revert b
  cases r <;> decide

theorem VReg.bits_lt (r : VReg) : r.bits.toNat < 6 := by cases r <;> decide

/-- R104: of the eight indexes of a register field, 0 to 5 name a register. -/
theorem VReg.exists_bits {b : BitVec 3} (h : b.toNat < 6) : ∃ r : VReg, b = r.bits := by
  have hsome : (VReg.ofBits b).isSome := by
    revert b
    decide
  exact ⟨_, VReg.bits_of_ofBits (Option.some_get hsome).symm⟩

/-! ### Fields of a word -/

variable {n w k s l : Nat}

/-- The field at bit `k` of a word that has `x` there. -/
@[simp] theorem extractLsb'_shifted_same (x : BitVec w) (h : k + w ≤ n) :
    (x.setWidth n <<< k).extractLsb' k w = x := by
  refine BitVec.eq_of_getLsbD_eq fun i hi => ?_
  simp [hi, show k + i < n by omega]

/-- A field that ends below bit `k`, or begins above the `w` bits from there on, has no bit of them. -/
@[simp] theorem extractLsb'_shifted_apart (x : BitVec w) (h : s + l ≤ k ∨ k + w ≤ s) :
    (x.setWidth n <<< k).extractLsb' s l = 0#l := by
  refine BitVec.eq_of_getLsbD_eq fun i hi => ?_
  rcases h with hbelow | habove
  · simp [show s + i < k by omega]
  · simp [BitVec.getLsbD_of_ge x (s + i - k) (by omega)]

@[simp] theorem extractLsb'_setWidth_same (x : BitVec w) (h : w ≤ n) : (x.setWidth n).extractLsb' 0 w = x := by
  rw [BitVec.extractLsb'_setWidth_of_le (by omega), BitVec.extractLsb'_eq_self]

@[simp] theorem extractLsb'_setWidth_apart (x : BitVec w) (h : w ≤ s) : (x.setWidth n).extractLsb' s l = 0#l := by
  simpa using extractLsb'_shifted_apart (n := n) (k := 0) (l := l) x (.inr (by omega : 0 + w ≤ s))

/-- A field under a mask that is all ones there is a field of the masked word. -/
theorem extractLsb'_of_masked {x m p : BitVec n} (h : x &&& m = p) (hm : m.extractLsb' s l = BitVec.allOnes l) :
    x.extractLsb' s l = p.extractLsb' s l := by
  rw [← h, BitVec.extractLsb'_and, hm, BitVec.and_allOnes]

theorem toNat_field {x : BitVec n} {m : Nat} (h : x.extractLsb' s l = BitVec.ofNat l m) :
    (x.toNat >>> s) % 2 ^ l = m % 2 ^ l := by
  rw [← BitVec.extractLsb'_toNat, h, BitVec.toNat_ofNat]

/-- The bits of a masked word under a part of the mask. -/
theorem masked_of_masked {x m p m' : BitVec n} (h : x &&& m = p) (hm : m &&& m' = m') : x &&& m' = p &&& m' := by
  rw [← h, BitVec.and_assoc, hm]

end Sys2Proof
end

section
/-! PROOFS. Micro-op words (R100 to R104): the legal fields of an instruction, which the decoder reads and the encoder
writes. -/

namespace Sys2Proof

/-- R100 to R104: the word `u` has the fields of the instruction, all of them legal, and zeros between them. -/
inductive UopFields (v : Variant) (u : BitVec 16) : Instr → Prop
  | vadd (d a b : VReg) (hop : u.extractLsb' 12 4 = 1#4) (hd : u.extractLsb' 9 3 = d.bits)
      (ha : u.extractLsb' 6 3 = a.bits) (hb : u.extractLsb' 3 3 = b.bits) (hz : u.extractLsb' 0 3 = 0#3) :
      UopFields v u (.vadd d a b)
  | vxor (d a b : VReg) (hop : u.extractLsb' 12 4 = 2#4) (hd : u.extractLsb' 9 3 = d.bits)
      (ha : u.extractLsb' 6 3 = a.bits) (hb : u.extractLsb' 3 3 = b.bits) (hz : u.extractLsb' 0 3 = 0#3) :
      UopFields v u (.vxor d a b)
  | vrotr (d a : VReg) (amt : BitVec 6) (hop : u.extractLsb' 12 4 = 3#4) (hd : u.extractLsb' 9 3 = d.bits)
      (ha : u.extractLsb' 6 3 = a.bits) (hamt : u.extractLsb' 0 6 = amt) (hlt : amt.toNat < v.w) :
      UopFields v u (.vrotr d a amt)
  | vshl (d a : VReg) (k : BitVec 2) (hop : u.extractLsb' 12 4 = 4#4) (hd : u.extractLsb' 9 3 = d.bits)
      (ha : u.extractLsb' 6 3 = a.bits) (hz : u.extractLsb' 3 3 = 0#3) (hdir : u.extractLsb' 2 1 = 0#1)
      (hk : u.extractLsb' 0 2 = k) (hne : k ≠ 0#2) : UopFields v u (.vshl d a k)
  | vshr (d a : VReg) (k : BitVec 2) (hop : u.extractLsb' 12 4 = 4#4) (hd : u.extractLsb' 9 3 = d.bits)
      (ha : u.extractLsb' 6 3 = a.bits) (hz : u.extractLsb' 3 3 = 0#3) (hdir : u.extractLsb' 2 1 = 1#1)
      (hk : u.extractLsb' 0 2 = k) (hne : k ≠ 0#2) : UopFields v u (.vshr d a k)

variable {v : Variant} {u : BitVec 16} {i : Instr}

/-! ### Fields as numbers -/

theorem VReg.field_lt {s : Nat} {r : VReg} (h : u.extractLsb' s 3 = r.bits) : (u.toNat >>> s) % 8 < 6 := by
  rw [show 8 = 2 ^ 3 from rfl, ← BitVec.extractLsb'_toNat, h]
  exact r.bits_lt

theorem VReg.exists_field {s : Nat} (h : (u.toNat >>> s) % 8 < 6) : ∃ r : VReg, u.extractLsb' s 3 = r.bits :=
  VReg.exists_bits (by rwa [BitVec.extractLsb'_toNat])

theorem uop_amount_lt {amt : BitVec 6} (hamt : u.extractLsb' 0 6 = amt) (hlt : amt.toNat < v.w) :
    u.toNat % 64 < v.w := by
  simpa [← hamt] using hlt

theorem uop_shift_ne_zero {k : BitVec 2} (hk : u.extractLsb' 0 2 = k) (hne : k ≠ 0#2) : u.toNat % 4 ≠ 0 := by
  simpa [← hk, ← BitVec.toNat_inj] using hne

theorem uop_registers_lt (h : UopFields v u i) : (u.toNat >>> 9) % 8 < 6 ∧ (u.toNat >>> 6) % 8 < 6 := by
  cases h <;> exact ⟨VReg.field_lt ‹u.extractLsb' 9 3 = _›, VReg.field_lt ‹u.extractLsb' 6 3 = _›⟩

/-! ### Decoder -/

theorem decodeRR_eq_ok {op : VReg → VReg → VReg → Instr} (h : decodeRR u op = .ok i) :
    ∃ d a b : VReg, i = op d a b ∧ u.extractLsb' 9 3 = d.bits ∧ u.extractLsb' 6 3 = a.bits ∧
      u.extractLsb' 3 3 = b.bits ∧ u.extractLsb' 0 3 = 0#3 := by
  unfold decodeRR at h
  split at h
  · next hz =>
    split at h <;> cases h
    next d a b hd ha hb =>
    exact ⟨d, a, b, rfl, VReg.bits_of_ofBits hd, VReg.bits_of_ofBits ha, VReg.bits_of_ofBits hb, hz⟩
  · cases h

theorem uopFields_of_decodeRI (hop : u.extractLsb' 12 4 = 3#4) (h : decodeRI v u = .ok i) : UopFields v u i := by
  unfold decodeRI at h
  split at h
  · next d a hd ha =>
    split at h <;> cases h
    next hlt =>
    exact .vrotr d a _ hop (VReg.bits_of_ofBits hd) (VReg.bits_of_ofBits ha) rfl hlt
  · cases h

theorem uopFields_of_decodeSH (hop : u.extractLsb' 12 4 = 4#4) (h : decodeSH u = .ok i) : UopFields v u i := by
  unfold decodeSH at h
  split at h
  · next hz =>
    split at h
    · next d a hd ha =>
      have hd := VReg.bits_of_ofBits hd
      have ha := VReg.bits_of_ofBits ha
      split_ifs at h with hne hdir <;> cases h
      · exact .vshl d a _ hop hd ha hz hdir rfl hne
      · exact .vshr d a _ hop hd ha hz ((BitVec.eq_zero_or_eq_one _).resolve_left hdir) rfl hne
    · cases h
  · cases h

/-- The decoder reads an instruction only from its fields. -/
theorem uopFields_of_decodeUop (h : decodeUop v u = .ok i) : UopFields v u i := by
  unfold decodeUop at h
  split at h
  case h_1 hop =>
    obtain ⟨d, a, b, rfl, hd, ha, hb, hz⟩ := decodeRR_eq_ok h
    exact .vadd d a b (BitVec.eq_of_toNat_eq hop) hd ha hb hz
  case h_2 hop =>
    obtain ⟨d, a, b, rfl, hd, ha, hb, hz⟩ := decodeRR_eq_ok h
    exact .vxor d a b (BitVec.eq_of_toNat_eq hop) hd ha hb hz
  case h_3 hop => exact uopFields_of_decodeRI (BitVec.eq_of_toNat_eq hop) h
  case h_4 hop => exact uopFields_of_decodeSH (BitVec.eq_of_toNat_eq hop) h
  case h_5 => cases h

theorem decodeUop_of_uopFields (h : UopFields v u i) : decodeUop v u = .ok i := by
  cases h with
  | vadd d a b hop hd ha hb hz | vxor d a b hop hd ha hb hz =>
    simp only [decodeUop, decodeRR, hop, hd, ha, hb, hz, VReg.ofBits_bits]
    rfl
  | vrotr d a amt hop hd ha hamt hlt =>
    simp only [decodeUop, decodeRI, hop, hd, ha, hamt, VReg.ofBits_bits]
    exact if_pos hlt
  | vshl d a k hop hd ha hz hdir hk hne | vshr d a k hop hd ha hz hdir hk hne =>
    simp [decodeUop, decodeSH, hop, hd, ha, hz, hdir, hk, hne]

/-! ### Encoder -/

/-- The word an instruction is encoded in has its fields. -/
theorem uopFields_of_encode (hwf : i.wf v = true) (h : encode i = .uop16 u) : UopFields v u i := by
  cases i with
  | init | update | final | compare | abort => cases h
  | vadd d a b | vxor d a b =>
    cases h
    constructor <;> simp [BitVec.extractLsb'_or]
  | vrotr d a amt =>
    cases h
    refine .vrotr d a amt ?_ ?_ ?_ ?_ (of_decide_eq_true hwf) <;> simp [BitVec.extractLsb'_or]
  | vshl d a k =>
    cases h
    refine .vshl d a k ?_ ?_ ?_ ?_ ?_ ?_ (bne_iff_ne.mp hwf) <;> simp [BitVec.extractLsb'_or]
  | vshr d a k =>
    cases h
    refine .vshr d a k ?_ ?_ ?_ ?_ ?_ ?_ (bne_iff_ne.mp hwf) <;> simp [BitVec.extractLsb'_or]

/-- R100, form RR: five fields make up the word. -/
theorem uop_eq_fieldsRR (u : BitVec 16) :
    u = (u.extractLsb' 12 4).setWidth 16 <<< 12 ||| (u.extractLsb' 9 3).setWidth 16 <<< 9 |||
      (u.extractLsb' 6 3).setWidth 16 <<< 6 ||| (u.extractLsb' 3 3).setWidth 16 <<< 3 |||
      (u.extractLsb' 0 3).setWidth 16 := by
  refine BitVec.eq_of_getLsbD_eq fun i hi => ?_
  interval_cases i <;> simp

/-- R100, form RI. -/
theorem uop_eq_fieldsRI (u : BitVec 16) :
    u = (u.extractLsb' 12 4).setWidth 16 <<< 12 ||| (u.extractLsb' 9 3).setWidth 16 <<< 9 |||
      (u.extractLsb' 6 3).setWidth 16 <<< 6 ||| (u.extractLsb' 0 6).setWidth 16 := by
  refine BitVec.eq_of_getLsbD_eq fun i hi => ?_
  interval_cases i <;> simp

/-- R100, form SH. -/
theorem uop_eq_fieldsSH (u : BitVec 16) :
    u = (u.extractLsb' 12 4).setWidth 16 <<< 12 ||| (u.extractLsb' 2 1).setWidth 16 <<< 2 |||
      (u.extractLsb' 9 3).setWidth 16 <<< 9 ||| (u.extractLsb' 6 3).setWidth 16 <<< 6 |||
      (u.extractLsb' 3 3).setWidth 16 <<< 3 ||| (u.extractLsb' 0 2).setWidth 16 := by
  refine BitVec.eq_of_getLsbD_eq fun i hi => ?_
  interval_cases i <;> simp

/-- Each bit of the word is in one of the fields: the encoder puts the word together again. -/
theorem encode_of_uopFields (h : UopFields v u i) : encode i = .uop16 u := by
  cases h with
  | vadd d a b hop hd ha hb hz | vxor d a b hop hd ha hb hz =>
    rw [uop_eq_fieldsRR u]
    simp [encode, encodeRR, hop, hd, ha, hb, hz]
  | vrotr d a amt hop hd ha hamt hlt =>
    rw [uop_eq_fieldsRI u]
    simp [encode, hop, hd, ha, hamt]
  | vshl d a k hop hd ha hz hdir hk hne | vshr d a k hop hd ha hz hdir hk hne =>
    rw [uop_eq_fieldsSH u]
    simp [encode, encodeSH, hop, hd, ha, hz, hdir, hk]

theorem wf_of_uopFields (h : UopFields v u i) : i.wf v = true := by
  cases h with
  | vadd | vxor => rfl
  | vrotr d a amt hop hd ha hamt hlt => exact decide_eq_true hlt
  | vshl d a k hop hd ha hz hdir hk hne | vshr d a k hop hd ha hz hdir hk hne => exact bne_iff_ne.mpr hne

end Sys2Proof
end

section
/-! PROOFS. Command words (R91, R92): the fields of a command, which the decoder reads and the encoder writes. -/

namespace Sys2Proof

/-- R91, R92: the word `cw` has the fields of the command, and zeros in its reserved bits. -/
inductive CmdFields (cw : BitVec 32) : Instr → Prop
  | init (nn kk : BitVec 7) (hop : cw.extractLsb' 28 4 = 1#4) (hz : cw &&& 0x0FFF8080#32 = 0#32)
      (hnn : cw.extractLsb' 0 7 = nn) (hkk : cw.extractLsb' 8 7 = kk) : CmdFields cw (.init nn kk)
  | update (len : BitVec 8) (hop : cw.extractLsb' 28 4 = 2#4) (hz : cw &&& 0x0FFFFF00#32 = 0#32)
      (hlen : cw.extractLsb' 0 8 = len) : CmdFields cw (.update len)
  | final (hop : cw.extractLsb' 28 4 = 3#4) (hz : cw &&& 0x0FFFFFFF#32 = 0#32) : CmdFields cw .final
  | compare (len : BitVec 8) (hop : cw.extractLsb' 28 4 = 4#4) (hz : cw &&& 0x0FFFFF00#32 = 0#32)
      (hlen : cw.extractLsb' 0 8 = len) : CmdFields cw (.compare len)
  | abort (hop : cw.extractLsb' 28 4 = 5#4) (hz : cw &&& 0x0FFFFFFF#32 = 0#32) : CmdFields cw .abort

variable {cw : BitVec 32} {i : Instr}

theorem cmdFields_of_decodeCmd (h : decodeCmd cw = .ok i) : CmdFields cw i := by
  unfold decodeCmd at h
  split at h
  case h_6 => cases h
  all_goals
    next hop =>
    split at h <;> cases h
    next hz =>
    constructor
    case hop => exact BitVec.eq_of_toNat_eq hop
    case hz => exact hz
    all_goals rfl

theorem decodeCmd_of_cmdFields (h : CmdFields cw i) : decodeCmd cw = .ok i := by
  cases h with
  | init nn kk hop hz hnn hkk => simp [decodeCmd, hop, hz, hnn, hkk]
  | update len hop hz hlen | compare len hop hz hlen => simp [decodeCmd, hop, hz, hlen]
  | final hop hz | abort hop hz => simp [decodeCmd, hop, hz]

theorem cmdFields_of_encode (h : encode i = .cmd32 cw) : CmdFields cw i := by
  cases i with
  | init nn kk =>
    cases h
    constructor
    case hz =>
      refine BitVec.eq_of_getLsbD_eq fun i hi => ?_
      interval_cases i <;> simp
    all_goals simp [BitVec.extractLsb'_or]
  | update len | compare len =>
    cases h
    constructor
    case hz =>
      refine BitVec.eq_of_getLsbD_eq fun i hi => ?_
      interval_cases i <;> simp
    all_goals simp [BitVec.extractLsb'_or]
  | final | abort =>
    cases h
    constructor <;> rfl
  | vadd | vxor | vrotr | vshl | vshr => cases h

/-- R91: `OPC`, the reserved bits and the operands make up the word. -/
theorem cmd_eq_fields_init (cw : BitVec 32) :
    cw = (cw.extractLsb' 28 4).setWidth 32 <<< 28 ||| cw &&& 0x0FFF8080#32 |||
      (cw.extractLsb' 8 7).setWidth 32 <<< 8 ||| (cw.extractLsb' 0 7).setWidth 32 := by
  refine BitVec.eq_of_getLsbD_eq fun i hi => ?_
  interval_cases i <;> simp

/-- R91, with the operand `LEN`. -/
theorem cmd_eq_fields_len (cw : BitVec 32) :
    cw = (cw.extractLsb' 28 4).setWidth 32 <<< 28 ||| cw &&& 0x0FFFFF00#32 ||| (cw.extractLsb' 0 8).setWidth 32 := by
  refine BitVec.eq_of_getLsbD_eq fun i hi => ?_
  interval_cases i <;> simp

/-- R91, with no operand. -/
theorem cmd_eq_fields_bare (cw : BitVec 32) :
    cw = (cw.extractLsb' 28 4).setWidth 32 <<< 28 ||| cw &&& 0x0FFFFFFF#32 := by
  refine BitVec.eq_of_getLsbD_eq fun i hi => ?_
  interval_cases i <;> simp

theorem encode_of_cmdFields (h : CmdFields cw i) : encode i = .cmd32 cw := by
  cases h with
  | init nn kk hop hz hnn hkk =>
    rw [cmd_eq_fields_init cw]
    simp [encode, hop, hz, hnn, hkk]
  | update len hop hz hlen | compare len hop hz hlen =>
    rw [cmd_eq_fields_len cw]
    simp [encode, hop, hz, hlen]
  | final hop hz | abort hop hz =>
    rw [cmd_eq_fields_bare cw]
    simp [encode, hop, hz]

theorem wf_of_cmdFields (v : Variant) (h : CmdFields cw i) : i.wf v = true := by cases h <;> rfl

end Sys2Proof
end

section
/-! PROOFS. The encoding statements: the decoder and the encoder are inverse to each other, the match/mask tables
(R93, R101) say which words decode, and the ALU refuses the others (R103). -/

namespace Sys2Proof

open Machine

variable {v : Variant} {cw : BitVec 32} {u : BitVec 16} {i : Instr}

/-! ### Decoder and encoder -/

/-- R90, R103: the words that decode are the encodings of the well-formed instructions. -/
theorem decode_eq_ok_iff {c : CodeWord} : decode v c = .ok i ↔ encode i = c ∧ i.wf v = true := by
  cases c with
  | cmd32 cw =>
    refine ⟨fun h => ?_, fun ⟨henc, _⟩ => decodeCmd_of_cmdFields (cmdFields_of_encode henc)⟩
    have hfields := cmdFields_of_decodeCmd h
    exact ⟨encode_of_cmdFields hfields, wf_of_cmdFields v hfields⟩
  | uop16 u =>
    refine ⟨fun h => ?_, fun ⟨henc, hwf⟩ => decodeUop_of_uopFields (uopFields_of_encode hwf henc)⟩
    have hfields := uopFields_of_decodeUop h
    exact ⟨encode_of_uopFields hfields, wf_of_uopFields hfields⟩

/-- Settles O2: the encoding has the instruction's fields, and the decoder reads an instruction from its fields. -/
theorem decodeOfEncodeIsTheInstruction : Obligations.DecodeOfEncodeIsTheInstruction :=
  fun _ _ hwf => decode_eq_ok_iff.mpr ⟨rfl, hwf⟩

/-- Settles O3: the fields that the decoder reads or requires to be zero make up the whole word. -/
theorem encodeOfDecodeIsTheWord : Obligations.EncodeOfDecodeIsTheWord :=
  fun _ _ _ h => decode_eq_ok_iff.mp h

/-- Settles O1: ten words run through the decoder. -/
theorem wordsOfTheSpecDecode : Obligations.WordsOfTheSpecDecode := by
  unfold Obligations.WordsOfTheSpecDecode
  decide

/-! ### The match/mask tables -/

theorem fitsItsRow : ∀ i : Instr, Laws.FitsItsRow.Statement i
  | .init nn kk => Laws.FitsItsRow.init nn kk
  | .update len => Laws.FitsItsRow.update len
  | .final => Laws.FitsItsRow.final
  | .compare len => Laws.FitsItsRow.compare len
  | .abort => Laws.FitsItsRow.abort
  | .vadd d a b => Laws.FitsItsRow.vadd d a b
  | .vxor d a b => Laws.FitsItsRow.vxor d a b
  | .vrotr d a amt => Laws.FitsItsRow.vrotr d a amt
  | .vshl d a k => Laws.FitsItsRow.vshl d a k
  | .vshr d a k => Laws.FitsItsRow.vshr d a k

theorem commandRow_of_decodeCmd (h : decodeCmd cw = .ok i) :
    ∃ row ∈ commandTable, row.mnemonic = i.mnemonic ∧ row.fits cw = true := by
  have henc := encode_of_cmdFields (cmdFields_of_decodeCmd h)
  rcases fitsItsRow i with ⟨cw', henc', hrow⟩ | ⟨u, henc', -⟩ <;> cases henc.symm.trans henc'
  exact hrow

theorem microOpRow_of_uopFields (h : UopFields v u i) :
    ∃ row ∈ microOpTable, row.mnemonic = i.mnemonic ∧ row.fits u = true := by
  have henc := encode_of_uopFields h
  rcases fitsItsRow i with ⟨cw, henc', -⟩ | ⟨u', henc', hrow⟩ <;> cases henc.symm.trans henc'
  exact hrow

/-- R93: every row's mask covers `OPC`. -/
theorem opcode_of_fits {row : CommandRow} (hrow : row ∈ commandTable) (h : row.fits cw = true) :
    cw.extractLsb' 28 4 = row.pattern.extractLsb' 28 4 := by
  have hmask : ∀ row ∈ commandTable, row.mask.extractLsb' 28 4 = BitVec.allOnes 4 := by decide
  exact extractLsb'_of_masked (beq_iff_eq.mp h) (hmask row hrow)

theorem decodeCmd_of_fits {row : CommandRow} (hrow : row ∈ commandTable) (h : row.fits cw = true) :
    ∃ i, decodeCmd cw = .ok i := by
  have hop := opcode_of_fits hrow h
  have hz : ∀ m, row.mask &&& m = m → cw &&& m = row.pattern &&& m := fun m => masked_of_masked (beq_iff_eq.mp h)
  simp only [commandTable, List.mem_cons, List.not_mem_nil, or_false] at hrow
  rcases hrow with rfl | rfl | rfl | rfl | rfl
  · exact ⟨_, decodeCmd_of_cmdFields (.init _ _ hop (hz _ rfl) rfl rfl)⟩
  · exact ⟨_, decodeCmd_of_cmdFields (.update _ hop (hz _ rfl) rfl)⟩
  · exact ⟨_, decodeCmd_of_cmdFields (.final hop (hz _ rfl))⟩
  · exact ⟨_, decodeCmd_of_cmdFields (.compare _ hop (hz _ rfl) rfl)⟩
  · exact ⟨_, decodeCmd_of_cmdFields (.abort hop (hz _ rfl))⟩

/-- Settles O4: a fitting row gives the fields of its command and a command's word fits its row; no two rows share an
`OPC`. -/
theorem commandWordsAreTheTableRows : Obligations.CommandWordsAreTheTableRows := by
  refine ⟨fun cw => ⟨?_, ?_⟩, fun cw i h => ?_, fun cw row hrow row' hrow' hfit hfit' => ?_⟩
  · rintro ⟨i, h⟩
    obtain ⟨row, hrow, -, hfit⟩ := commandRow_of_decodeCmd h
    exact ⟨row, hrow, hfit⟩
  · rintro ⟨row, hrow, hfit⟩
    exact decodeCmd_of_fits hrow hfit
  · obtain ⟨row, hrow, hmnemonic, hfit⟩ := commandRow_of_decodeCmd h
    exact ⟨row, hrow, hfit, hmnemonic⟩
  · have hopcodes : ∀ row ∈ commandTable, ∀ row' ∈ commandTable,
        row.pattern.extractLsb' 28 4 = row'.pattern.extractLsb' 28 4 → row = row' := by decide
    exact hopcodes row hrow row' hrow' ((opcode_of_fits hrow hfit).symm.trans (opcode_of_fits hrow' hfit'))

/-- R101 to R104: the row that a legal micro-op word fits, and the legal fields in it. -/
theorem legalRow_of_uopFields (h : UopFields v u i) :
    (u &&& 0xF007#16 = 0x1000#16 ∧ (u.toNat >>> 3) % 8 < 6) ∨
    (u &&& 0xF007#16 = 0x2000#16 ∧ (u.toNat >>> 3) % 8 < 6) ∨
    (u &&& 0xF000#16 = 0x3000#16 ∧ u.toNat % 64 < v.w) ∨
    (u &&& 0xF03C#16 = 0x4000#16 ∧ u.toNat % 4 ≠ 0) ∨
    (u &&& 0xF03C#16 = 0x4004#16 ∧ u.toNat % 4 ≠ 0) := by
  have hrow := microOpRow_of_uopFields h
  cases h <;> simp [microOpTable, Instr.mnemonic, MicroOpRow.fits] at hrow
  case vadd d a b hop hd ha hb hz => exact .inl ⟨hrow, VReg.field_lt hb⟩
  case vxor d a b hop hd ha hb hz => exact .inr (.inl ⟨hrow, VReg.field_lt hb⟩)
  case vrotr d a amt hop hd ha hamt hlt => exact .inr (.inr (.inl ⟨hrow, uop_amount_lt hamt hlt⟩))
  case vshl d a k hop hd ha hz hdir hk hne => exact .inr (.inr (.inr (.inl ⟨hrow, uop_shift_ne_zero hk hne⟩)))
  case vshr d a k hop hd ha hz hdir hk hne => exact .inr (.inr (.inr (.inr ⟨hrow, uop_shift_ne_zero hk hne⟩)))

/-- Settles O5: a fitting row gives `OP` and the zero bits, and legal fields name registers, an amount and a shift. -/
theorem microOpWordsAreTheLegalTableRows : Obligations.MicroOpWordsAreTheLegalTableRows := by
  intro v u
  refine ⟨?_, ?_⟩
  · rintro ⟨i, h⟩
    have hfields := uopFields_of_decodeUop h
    exact ⟨uop_registers_lt hfields, legalRow_of_uopFields hfields⟩
  · rintro ⟨⟨hd, ha⟩, hrow⟩
    suffices ∃ i, UopFields v u i from this.imp fun _ => decodeUop_of_uopFields
    obtain ⟨d, hd⟩ := VReg.exists_field hd
    obtain ⟨a, ha⟩ := VReg.exists_field ha
    rcases hrow with ⟨hfit, hb⟩ | ⟨hfit, hb⟩ | ⟨hfit, hamt⟩ | ⟨hfit, hk⟩ | ⟨hfit, hk⟩
    all_goals have hop := extractLsb'_of_masked (s := 12) (l := 4) hfit rfl
    · obtain ⟨b, hb⟩ := VReg.exists_field hb
      exact ⟨_, .vadd d a b hop hd ha hb (extractLsb'_of_masked hfit rfl)⟩
    · obtain ⟨b, hb⟩ := VReg.exists_field hb
      exact ⟨_, .vxor d a b hop hd ha hb (extractLsb'_of_masked hfit rfl)⟩
    · exact ⟨_, .vrotr d a _ hop hd ha rfl (by simpa using hamt)⟩
    · exact ⟨_, .vshl d a _ hop hd ha (extractLsb'_of_masked hfit rfl) (extractLsb'_of_masked hfit rfl) rfl
        (by simpa [← BitVec.toNat_inj] using hk)⟩
    · exact ⟨_, .vshr d a _ hop hd ha (extractLsb'_of_masked hfit rfl) (extractLsb'_of_masked hfit rfl) rfl
        (by simpa [← BitVec.toNat_inj] using hk)⟩

/-! ### Reserved micro-op words (R103, R104) -/

theorem step_of_reserved {s : State} {why : Reject} (h : decodeUop s.variant u = .error why)
    (hissue : s.dp.seq.issue = some u) : step s = .refused (.reservedMicroOp why) := by
  rw [step_of_issue hissue, issueUop, h]

theorem decodeUop_of_mem {words : List (BitVec 16)} {ops : List Instr}
    (h : words.map (decodeUop v) = ops.map .ok) (hu : u ∈ words) : ∃ i, decodeUop v u = .ok i := by
  obtain ⟨i, -, hi⟩ := List.mem_map.mp (h ▸ List.mem_map_of_mem hu)
  exact ⟨i, hi.symm⟩

theorem decodeUop_of_mem_roundProgram (hu : SeqItem.uop u ∈ roundProgram v) : ∃ i, decodeUop v u = .ok i := by
  have hmem : u ∈ gMicroprogram v ∨ u ∈ [0x4241#16, 0x4482#16, 0x46C3#16, 0x4245#16, 0x4486#16, 0x46C7#16] := by
    simp only [roundProgram, List.mem_append, List.mem_map, List.mem_cons, List.not_mem_nil, SeqItem.uop.injEq,
      exists_eq_right, reduceCtorEq, or_false, false_or] at hu ⊢
    tauto
  rcases hmem with hg | hshuffle
  · exact decodeUop_of_mem (ops := gOps v) (gMicroprogram_decodes v) hg
  · exact decodeUop_of_mem (ops := [.vshl .VB .VB 1, .vshl .VC .VC 2, .vshl .VD .VD 3, .vshr .VB .VB 1,
      .vshr .VC .VC 2, .vshr .VD .VD 3]) (shuffle_words_decode v) hshuffle

/-- Settles O14: a word that decodes has legal fields, so a reserved one is an error, which the step refuses. -/
theorem reservedMicroOpsAreRefused : Obligations.ReservedMicroOpsAreRefused := by
  refine ⟨fun v u hreserved => ?_, fun v u => decodeUop_of_mem_roundProgram⟩
  cases h : decodeUop v u with
  | error why =>
    refine ⟨why, rfl, fun s hv hissue => ?_⟩
    subst hv
    exact step_of_reserved h hissue
  | ok i =>
    have hfields := uopFields_of_decodeUop h
    obtain ⟨hd, ha⟩ := uop_registers_lt hfields
    have hbound := u.isLt
    cases hfields with
    | vadd d a b hop _ _ hb hz | vxor d a b hop _ _ hb hz =>
      have hop := toNat_field hop
      have hz := toNat_field hz
      have hb := VReg.field_lt hb
      omega
    | vrotr d a amt hop _ _ hamt hlt =>
      have hop := toNat_field hop
      have hlt := uop_amount_lt hamt hlt
      omega
    | vshl d a k hop _ _ hz hdir hk hne | vshr d a k hop _ _ hz hdir hk hne =>
      have hop := toNat_field hop
      have hz := toNat_field hz
      have hne := uop_shift_ne_zero hk hne
      omega

/-! ### Assembler lines (R106) -/

theorem commandLine_eq (cw : BitVec 32) : commandLine cw = .write 0x004 .bits32 cw :: waitLines := rfl

/-- Settles O6: an operand's number is the operand widened to the word, so a line's word is the encoding. -/
theorem assemblerLinesWriteTheEncodings : Obligations.AssemblerLinesWriteTheEncodings := by
  refine ⟨fun nn kk => ⟨_, rfl, ?_⟩, fun len => ⟨_, rfl, ?_⟩, ⟨_, rfl, commandLine_eq _⟩,
    fun len => ⟨_, rfl, ?_⟩, ⟨_, rfl, commandLine_eq _⟩⟩
  · rw [initLine, commandLine_eq, BitVec.ofNat_toNat, BitVec.ofNat_toNat]
  · rw [updateLine, commandLine_eq, BitVec.ofNat_toNat]
  · rw [compareLine, commandLine_eq, BitVec.ofNat_toNat]

end Sys2Proof
end

section
/-! PROOFS. The word/vector ALU (40_vector_alu.md): the lanes each micro-op writes, when `exec` refuses one, and the
step that runs the word at the ALU's input. -/

namespace Sys2Proof.Machine

variable {v : Variant}

/-! ### Rotation (R15) -/

theorem rotr_toNat (x : Word v) (n : Nat) :
    (rotr x n).toNat = if n = 0 then x.toNat else (x.toNat >>> n ||| x.toNat <<< (v.w - n)) % 2 ^ v.w := by
  unfold rotr
  split
  · rfl
  · have hfits : x.toNat >>> n < 2 ^ v.w := Nat.lt_of_le_of_lt (Nat.shiftRight_le _ _) x.isLt
    rw [BitVec.toNat_or, BitVec.toNat_ushiftRight, BitVec.toNat_shiftLeft, Nat.or_mod_two_pow,
      Nat.mod_eq_of_lt hfits]

/-- Settles O10: the bits below `w - n` come down by `n`, and the others wrap around. -/
theorem rotationMovesEveryBit : Obligations.RotationMovesEveryBit := by
  intro v x n i hn hi
  rw [rotr_eq_rotateRight x hn, BitVec.getLsbD_rotateRight, Nat.mod_eq_of_lt hn]
  by_cases hlow : i < v.w - n
  · rw [Nat.mod_eq_of_lt (by omega : i + n < v.w), Nat.add_comm i n]
    simp [hlow]
  · have hwrap : (i + n) % v.w = i - (v.w - n) := by
      rw [Nat.mod_eq_sub_mod (by omega), Nat.mod_eq_of_lt (by omega)]
      omega
    simp [hlow, hi, hwrap]

/-! ### Lane indexes (R124, R125) -/

theorem lane_add_shift (j : Fin 4) (k : BitVec 2) : j + k.toFin = Fin.ofNat 4 (j.val + k.toNat) := rfl

theorem lane_sub_shift (j : Fin 4) (k : BitVec 2) : j - k.toFin = Fin.ofNat 4 (j.val + 4 - k.toNat) := by
  have hk : k.toNat < 4 := k.isLt
  refine Fin.ext ?_
  change (4 - k.toNat + j.val) % 4 = (j.val + 4 - k.toNat) % 4
  omega

theorem lane_sub_shift_eq_add_neg (j : Fin 4) (k : BitVec 2) : j - k.toFin = j + (-k).toFin := by
  rw [BitVec.toFin_neg]
  exact sub_eq_add_neg j _

/-! ### The lanes of the destination -/

variable (V : VFile v) (d a b : VReg) (j : Fin 4)

@[simp] theorem aluVadd_lane :
    ((aluVadd d a b V).get d).get j = (V.get a).get j + (V.get b).get j := by simp [aluVadd]

@[simp] theorem aluVxor_lane :
    ((aluVxor d a b V).get d).get j = (V.get a).get j ^^^ (V.get b).get j := by simp [aluVxor]

@[simp] theorem aluVrotr_lane (amt : BitVec 6) :
    ((aluVrotr d a amt V).get d).get j = rotr ((V.get a).get j) amt.toNat := by simp [aluVrotr]

@[simp] theorem aluVshl_lane (k : BitVec 2) :
    ((aluVshl d a k V).get d).get j = (V.get a).get (j + k.toFin) := by simp [aluVshl]

@[simp] theorem aluVshr_lane (k : BitVec 2) :
    ((aluVshr d a k V).get d).get j = (V.get a).get (j - k.toFin) := by simp [aluVshr]

end Sys2Proof.Machine
end

section
/-! PROOFS. The micro-op statements: what `exec` does for each, and the step that runs one (R121 to R125, R129). -/

namespace Sys2Proof.Machine

/-! ### What `exec` answers -/

section

variable (s : State) (d a b : VReg)

theorem exec_vadd : exec (.vadd d a b) s = .next (setVregs s (aluVadd d a b s.dp.vregs)) := rfl

theorem exec_vxor : exec (.vxor d a b) s = .next (setVregs s (aluVxor d a b s.dp.vregs)) := rfl

theorem exec_vrotr_of_lt {amt : BitVec 6} (h : amt.toNat < s.variant.w) :
    exec (.vrotr d a amt) s = .next (setVregs s (aluVrotr d a amt s.dp.vregs)) := if_pos (decide_eq_true h)

theorem exec_vrotr_of_ge {amt : BitVec 6} (h : s.variant.w ≤ amt.toNat) :
    exec (.vrotr d a amt) s = .refused (.reservedMicroOp .amountTooLarge) :=
  if_neg (by simpa [amountOk] using h)

theorem exec_vshl_of_ne_zero {k : BitVec 2} (h : k ≠ 0) :
    exec (.vshl d a k) s = .next (setVregs s (aluVshl d a k s.dp.vregs)) := if_pos (bne_iff_ne.mpr h)

theorem exec_vshl_zero : exec (.vshl d a 0) s = .refused (.reservedMicroOp .zeroShift) := rfl

theorem exec_vshr_of_ne_zero {k : BitVec 2} (h : k ≠ 0) :
    exec (.vshr d a k) s = .next (setVregs s (aluVshr d a k s.dp.vregs)) := if_pos (bne_iff_ne.mpr h)

theorem exec_vshr_zero : exec (.vshr d a 0) s = .refused (.reservedMicroOp .zeroShift) := rfl

end

/-- R101: an instruction with the mnemonic of a micro-op row is encoded under that row's pattern. -/
theorem encode_under_row {row : MicroOpRow} {i : Instr} (hrow : row ∈ microOpTable)
    (hname : row.mnemonic = i.mnemonic) : ∃ u, encode i = .uop16 u ∧ u &&& row.mask = row.pattern := by
  have hapart : ∀ row ∈ microOpTable, ∀ cmd ∈ commandTable, cmd.mnemonic ≠ row.mnemonic := by decide
  have hunique : ∀ row ∈ microOpTable, ∀ row' ∈ microOpTable, row'.mnemonic = row.mnemonic → row' = row := by decide
  rcases fitsItsRow i with ⟨_, _, cmd, hcmd, hcmdName, _⟩ | ⟨u, henc, row', hrow', hname', hfit⟩
  · exact absurd (hcmdName.trans hname.symm) (hapart row hrow cmd hcmd)
  · obtain rfl := hunique row hrow row' hrow' (hname'.trans hname.symm)
    exact ⟨u, henc, beq_iff_eq.mp hfit⟩

/-! ### The statements -/

/-- Settles O7: a lane of the destination is the sum of the old lanes as words of `w` bits. -/
theorem vaddAddsLanesModuloTheWord : Obligations.VaddAddsLanesModuloTheWord := by
  intro s d a b
  refine ⟨_, exec_vadd s d a b, fun j => ?_, fun r hr => vfile_get_set_of_ne _ _ hr,
    encode_under_row (row := ⟨"VADD", 0x1000, 0xF007⟩) (by decide) rfl⟩
  rw [aluVadd_lane, BitVec.toNat_add]

/-- Settles O8: a lane of the destination is the exclusive or of the old lanes. -/
theorem vxorXorsLanes : Obligations.VxorXorsLanes := by
  intro s d a b
  refine ⟨_, exec_vxor s d a b, fun j => ?_, fun r hr => vfile_get_set_of_ne _ _ hr,
    encode_under_row (row := ⟨"VXOR", 0x2000, 0xF007⟩) (by decide) rfl⟩
  rw [aluVxor_lane, BitVec.toNat_xor]

/-- Settles O9: `exec` checks the amount, and a lane of the destination is the old lane under `rotr`. -/
theorem vrotrRotatesLanesRight : Obligations.VrotrRotatesLanesRight := by
  refine ⟨fun s d a amt hlt => ?_, fun s d a amt hge => exec_vrotr_of_ge s d a hge⟩
  refine ⟨_, exec_vrotr_of_lt s d a hlt, fun j => ?_, fun r hr => vfile_get_set_of_ne _ _ hr,
    encode_under_row (row := ⟨"VROTR", 0x3000, 0xF000⟩) (by decide) rfl⟩
  have hzero : amt.toNat = 0 ↔ amt = 0 := BitVec.toNat_inj (y := 0)
  simp only [aluVrotr_lane, rotr_toNat, hzero]

/-- Settles O11: `exec` checks the shift, and the lane's index is a sum mod 4. -/
theorem vshlShiftsLanesLeft : Obligations.VshlShiftsLanesLeft := by
  refine ⟨fun s d a k hne => ?_, exec_vshl_zero⟩
  refine ⟨_, exec_vshl_of_ne_zero s d a hne, fun j => ?_, fun r hr => vfile_get_set_of_ne _ _ hr,
    encode_under_row (row := ⟨"VSHL", 0x4000, 0xF03C⟩) (by decide) rfl⟩
  rw [aluVshl_lane, lane_add_shift]

/-- Settles O12: `exec` checks the shift, and the lane's index is a difference mod 4. -/
theorem vshrShiftsLanesRight : Obligations.VshrShiftsLanesRight := by
  refine ⟨fun s d a k hne => ?_, exec_vshr_zero⟩
  refine ⟨_, exec_vshr_of_ne_zero s d a hne, fun j => ?_, fun r hr => vfile_get_set_of_ne _ _ hr,
    encode_under_row (row := ⟨"VSHR", 0x4004, 0xF03C⟩) (by decide) rfl⟩
  rw [aluVshr_lane, lane_sub_shift]

/-- Settles O13: lane indexes are numbers mod 4, where a shift back undoes the shift and is the shift by `-k`. -/
theorem laneShiftsUndoEachOther : Obligations.LaneShiftsUndoEachOther := by
  refine fun v V d k => ⟨vfile_ext fun r => ?_, fun a => ?_⟩
  · by_cases hr : r = d
    · subst hr
      refine lanes_ext fun j => ?_
      rw [aluVshr_lane, aluVshl_lane, sub_add_cancel]
    · exact (vfile_get_set_of_ne _ _ hr).trans (vfile_get_set_of_ne V _ hr)
  · simp only [aluVshr, aluVshl, lane_sub_shift_eq_add_neg]

/-- Settles O36: the ALU decodes the word at its input and runs it. -/
theorem stepRunsTheIssuedMicroOp : Obligations.StepRunsTheIssuedMicroOp := by
  intro s u i hissue hdec
  rw [step_of_issue hissue, issueUop, hdec]
  rfl

end Sys2Proof.Machine
end

section
/-! PROOFS. The constants and the working vector of a compression (R143, R147 to R150). -/

namespace Sys2Proof.Machine

variable {v : Variant}

/-! ### SIGMA (R143) -/

theorem sigma_mod (r : Nat) : sigma (r % 10) = sigma r := by
  funext k
  simp only [sigma, Nat.mod_mod]

theorem sigma_injective_of_lt : ∀ (r : Fin 10) (i j : Fin 16), sigma r i = sigma r j → i = j := by decide

/-- Settles O16: none of the ten rows repeats an index, and an injection of 0..15 into itself is onto. -/
theorem sigmaRowsArePermutations : Obligations.SigmaRowsArePermutations := by
  intro r
  rw [← sigma_mod, ← Finite.injective_iff_bijective]
  exact fun i j => sigma_injective_of_lt ⟨r % 10, Nat.mod_lt r (by decide)⟩ i j

/-! ### The working vector (R147 to R149) -/

theorem counterLo_eq (t : BitVec 64) : counterLo v t = BitVec.ofNat v.w (t.toNat % 2 ^ v.w) :=
  BitVec.eq_of_toNat_eq (by simp [counterLo])

theorem counterHi_eq (t : BitVec 64) : counterHi v t = BitVec.ofNat v.w (t.toNat / 2 ^ v.w) := by
  rw [counterHi, Nat.shiftRight_eq_div_pow]

theorem counterHi_B (t : BitVec 64) : counterHi .B t = 0 := by
  have hzero : t.toNat / 2 ^ Variant.w .B = 0 := Nat.div_eq_of_lt t.isLt
  rw [counterHi_eq, hzero]
  rfl

theorem finalFlag_eq (last : Bool) :
    finalFlag v last = if last then BitVec.ofNat v.w (2 ^ v.w - 1) else 0 := by
  cases last with
  | false => rfl
  | true => exact BitVec.eq_of_toNat_eq (by simp [finalFlag])

section

variable (h : Vector (Word v) 8) (t : BitVec 64) (last : Bool)

theorem workingVector_12 : (workingVector h t last)[12] = (iv v)[4] ^^^ counterLo v t := rfl

theorem workingVector_13 : (workingVector h t last)[13] = (iv v)[5] ^^^ counterHi v t := rfl

theorem workingVector_14 : (workingVector h t last)[14] = (iv v)[6] ^^^ finalFlag v last := rfl

theorem workingVector_chaining (i : Fin 8) : (workingVector h t last)[i.val] = h[i] := by
  fin_cases i <;> rfl

theorem workingVector_iv (i : Fin 4) : (workingVector h t last)[8 + i.val] = (iv v)[i.val] := by
  fin_cases i <;> rfl

end

/-- Settles O17: `v[12]` and `v[13]` hold the counter's words; a 64-bit counter has nothing above bit 63, and its
halves are its words at 32 bits. -/
theorem counterIsSplitAtTheWord : Obligations.CounterIsSplitAtTheWord := by
  refine ⟨fun v h t last => ⟨?_, ?_⟩, fun h t last => ?_, fun t => ⟨?_, ?_⟩⟩
  · rw [workingVector_12, counterLo_eq]
  · rw [workingVector_13, counterHi_eq]
  · rw [workingVector_13, counterHi_B]
    exact BitVec.xor_zero
  · rfl
  · rfl

/-! ### The load (R150) -/

theorem loadRows_lanes (V : Vector (Word v) 16) (R : VFile v) (j : Fin 4) :
    (loadRows V R).VA.get j = V[j.val] ∧ (loadRows V R).VB.get j = V[4 + j.val] ∧
    (loadRows V R).VC.get j = V[8 + j.val] ∧ (loadRows V R).VD.get j = V[12 + j.val] := by
  fin_cases j <;> exact ⟨rfl, rfl, rfl, rfl⟩

/-- Settles O60: the words one by one, and the load of the four rows. -/
theorem workingVectorIsLoaded : Obligations.WorkingVectorIsLoaded := by
  refine ⟨fun v h t last => ⟨workingVector_chaining h t last, workingVector_iv h t last, ?_, ?_, ?_, rfl⟩,
    fun v d t last j => loadRows_lanes (workingVector d.h t last) d.vregs j⟩
  · rw [workingVector_12, counterLo_eq]
  · rw [workingVector_13, counterHi_eq]
  · rw [workingVector_14, finalFlag_eq]

end Sys2Proof.Machine
end

section
/-! PROOFS. The mixing primitive G (R151, R152): its two halves, each injective, and the microprogram that mixes all
four lanes at once. -/

namespace Sys2Proof.Machine

variable {v : Variant}

/-! ### The scalar G and its two halves (R152) -/

theorem rotr_injective {n : Nat} (hn : n < v.w) : Function.Injective fun x : Word v => rotr x n := by
  intro x y h
  refine BitVec.eq_of_getLsbD_eq fun i hi => ?_
  have hlt : (i + (v.w - n)) % v.w < v.w := Nat.mod_lt _ (by omega)
  have hback : ((i + (v.w - n)) % v.w + n) % v.w = i := by
    rw [Nat.mod_add_mod, show i + (v.w - n) + n = i + v.w by omega, Nat.add_mod_right, Nat.mod_eq_of_lt hi]
  have hbit := congrArg (fun z : Word v => z.getLsbD ((i + (v.w - n)) % v.w)) h
  simpa only [rotationMovesEveryBit v _ n _ hn hlt, hback] using hbit

/-- Half of G: the steps that add one message word `x` and rotate by `m` and `n`. -/
def mixHalf (m n : Nat) (x : Word v) (q : GWords v) : GWords v :=
  let a := q.a + q.b + x
  let d := rotr (q.d ^^^ a) m
  let c := q.c + d
  { a := a, b := rotr (q.b ^^^ c) n, c := c, d := d }

theorem mixG_eq_halves (q : GWords v) (x y : Word v) :
    mixG q.a q.b q.c q.d x y = mixHalf (rc3 v) (rc4 v) y (mixHalf (rc1 v) (rc2 v) x q) := rfl

/-- The last write is undone first: the old `c` and `d` come from the new `d` and `a`, then `b`, then `a`. -/
theorem mixHalf_injective {m n : Nat} (hm : m < v.w) (hn : n < v.w) (x : Word v) :
    Function.Injective (mixHalf m n x) := by
  rintro ⟨a, b, c, d⟩ ⟨a', b', c', d'⟩ h
  simp only [mixHalf, GWords.mk.injEq] at h
  obtain ⟨ha, hb, hc, hd⟩ := h
  have hd0 := rotr_injective hm hd
  have hb0 := rotr_injective hn hb
  rw [hd, add_left_inj] at hc
  rw [hd, hc, BitVec.xor_left_inj] at hb0
  rw [ha, BitVec.xor_left_inj] at hd0
  rw [hb0, add_left_inj, add_left_inj] at ha
  rw [ha, hb0, hc, hd0]

theorem rc_lt (v : Variant) : rc1 v < v.w ∧ rc2 v < v.w ∧ rc3 v < v.w ∧ rc4 v < v.w := by cases v <;> decide

theorem finite_gWords (v : Variant) : Finite (GWords v) := by
  refine Finite.of_injective (fun q => (q.a, q.b, q.c, q.d)) ?_
  rintro ⟨a, b, c, d⟩ ⟨a', b', c', d'⟩ h
  simpa using h

/-- Settles O18: each half of G is injective, and the four words have finitely many values. -/
theorem mixingIsABijection : Obligations.MixingIsABijection := by
  intro v x y
  obtain ⟨h1, h2, h3, h4⟩ := rc_lt v
  have hfinite := finite_gWords v
  have hcomp : (fun q : GWords v => mixG q.a q.b q.c q.d x y) =
      mixHalf (rc3 v) (rc4 v) y ∘ mixHalf (rc1 v) (rc2 v) x := funext fun q => mixG_eq_halves q x y
  rw [hcomp, ← Finite.injective_iff_bijective]
  exact (mixHalf_injective h3 h4 y).comp (mixHalf_injective h1 h2 x)

/-! ### The microprogram (R151) -/

/-- Lane `j` after G, with the lanes of VX and VY as message words. -/
def mixColumn (R : VFile v) (j : Fin 4) : GWords v :=
  mixG (R.VA.get j) (R.VB.get j) (R.VC.get j) (R.VD.get j) (R.VX.get j) (R.VY.get j)

/-- The register file after G on all four lanes. -/
def mixLanes (R : VFile v) : VFile v :=
  { R with
    VA := Lanes.ofFn fun j => (mixColumn R j).a
    VB := Lanes.ofFn fun j => (mixColumn R j).b
    VC := Lanes.ofFn fun j => (mixColumn R j).c
    VD := Lanes.ofFn fun j => (mixColumn R j).d }

/-- A list of micro-ops on the register file. -/
def aluRunAll (ops : List Instr) (R : VFile v) : VFile v := ops.foldl (fun R i => aluRun i R) R

/-- Each micro-op writes one line of the scalar G in every lane, so the 14 of them evaluate to it. -/
theorem aluRunAll_gOps (R : VFile v) : aluRunAll (gOps v) R = mixLanes R := by
  cases v <;> rfl

/-! ### The words of the ROM (R151, R153) -/

/-- Items run from an idle ALU input change the vector registers only. -/
theorem foldl_runItem (items : List SeqItem) (d : Datapath v) (hi : d.seq.issue = none) :
    items.foldl (fun d item => runItem item d) d =
      { d with vregs := items.foldl (itemRegs (leWord d.buf) d.seq.r.toNat) d.vregs } := by
  induction items generalizing d with
  | nil => rfl
  | cons item items ih =>
    rw [List.foldl_cons, runItem_eq item d hi]
    exact ih { d with vregs := itemRegs (leWord d.buf) d.seq.r.toNat d.vregs item } hi

theorem foldl_itemRegs_uops (m : Fin 16 → Word v) (r : Nat) {words : List (BitVec 16)} {ops : List Instr}
    (h : words.map (decodeUop v) = ops.map .ok) (R : VFile v) :
    (words.map SeqItem.uop).foldl (itemRegs m r) R = aluRunAll ops R := by
  induction words generalizing ops R with
  | nil =>
    obtain rfl : ops = [] := List.map_eq_nil_iff.mp h.symm
    rfl
  | cons u us ih =>
    obtain ⟨i, is, rfl, hu, hus⟩ := List.map_eq_cons_iff.mp h.symm
    rw [List.map_cons, List.foldl_cons, ih hus.symm]
    simp only [itemRegs, ← hu]
    rfl

theorem gMicroprogram_regs (m : Fin 16 → Word v) (r : Nat) (R : VFile v) :
    ((gMicroprogram v).map SeqItem.uop).foldl (itemRegs m r) R = mixLanes R := by
  rw [foldl_itemRegs_uops m r (gMicroprogram_decodes v), aluRunAll_gOps]

/-- The first micro-op takes the place of whatever stands at the ALU's input. -/
theorem foldl_gMicroprogram_clear_issue (d : Datapath v) :
    ((gMicroprogram v).map SeqItem.uop).foldl (fun d item => runItem item d) d =
      ((gMicroprogram v).map SeqItem.uop).foldl (fun d item => runItem item d)
        { d with seq := { d.seq with issue := none } } := by
  obtain ⟨u, us, h⟩ := List.exists_cons_of_ne_nil (show gMicroprogram v ≠ [] by cases v <;> decide)
  rw [h, List.map_cons, List.foldl_cons, List.foldl_cons]
  rfl

/-- Settles O19: the words decode to the micro-ops of G, which mix all four lanes. -/
theorem microprogramMixesEveryLane : Obligations.MicroprogramMixesEveryLane := by
  intro v d
  refine ⟨mixLanes d.vregs, ?_, fun j => ?_, rfl, rfl⟩
  · rw [foldl_gMicroprogram_clear_issue, foldl_runItem _ _ rfl, gMicroprogram_regs]
  · simp only [mixLanes, lanes_get_ofFn]
    rfl

end Sys2Proof.Machine
end

section
/-! PROOFS. The datapath computes COMPRESS (R153 to R157, R160, R161): a round of the sequencer's program is the
scalar round on the words of the rows, and the sequencer runs ROUNDS of them. -/

namespace Sys2Proof.Machine

variable {v : Variant}

/-! ### The calls of G, lane by lane (R153, R154) -/

/-- G on lane `j` of the four rows, with message words `x` and `y`. -/
def mixLane (j : Fin 4) (x y : Word v) (R : VFile v) : VFile v :=
  let g := mixG (R.VA.get j) (R.VB.get j) (R.VC.get j) (R.VD.get j) x y
  { R with
    VA := Lanes.ofFn (Function.update R.VA.get j g.a)
    VB := Lanes.ofFn (Function.update R.VB.get j g.b)
    VC := Lanes.ofFn (Function.update R.VC.get j g.c)
    VD := Lanes.ofFn (Function.update R.VD.get j g.d) }

/-- A lane is mixed from its own words only, so mixing all lanes is mixing them one after another (R128). -/
theorem mixLanes_eq_mixLane (R : VFile v) :
    mixLanes R =
      mixLane 3 R.VX.x3 R.VY.x3 (mixLane 2 R.VX.x2 R.VY.x2 (mixLane 1 R.VX.x1 R.VY.x1
        (mixLane 0 R.VX.x0 R.VY.x0 R))) := rfl

/-- R153: the rows shifted left by 1, 2 and 3 lanes, so that lane `j` holds the words of diagonal `j`. -/
def diagonalize (R : VFile v) : VFile v := aluRunAll [.vshl .VB .VB 1, .vshl .VC .VC 2, .vshl .VD .VD 3] R

/-- R153: the rows shifted back. -/
def undiagonalize (R : VFile v) : VFile v := aluRunAll [.vshr .VB .VB 1, .vshr .VC .VC 2, .vshr .VD .VD 3] R

theorem rowsOf_undiagonalize_diagonalize (R : VFile v) : rowsOf (undiagonalize (diagonalize R)) = rowsOf R := rfl

/-- The first four calls of a round mix the lanes. -/
theorem mixAt_column :
    (∀ (x y : Word v) R, mixAt 0 4 8 12 x y (rowsOf R) = rowsOf (mixLane 0 x y R)) ∧
    (∀ (x y : Word v) R, mixAt 1 5 9 13 x y (rowsOf R) = rowsOf (mixLane 1 x y R)) ∧
    (∀ (x y : Word v) R, mixAt 2 6 10 14 x y (rowsOf R) = rowsOf (mixLane 2 x y R)) ∧
    (∀ (x y : Word v) R, mixAt 3 7 11 15 x y (rowsOf R) = rowsOf (mixLane 3 x y R)) :=
  ⟨fun _ _ _ => rfl, fun _ _ _ => rfl, fun _ _ _ => rfl, fun _ _ _ => rfl⟩

/-- The last four calls of a round mix the lanes of the shifted rows. -/
theorem mixAt_diagonal :
    (∀ (x y : Word v) R, mixAt 0 5 10 15 x y (rowsOf (undiagonalize R)) = rowsOf (undiagonalize (mixLane 0 x y R))) ∧
    (∀ (x y : Word v) R, mixAt 1 6 11 12 x y (rowsOf (undiagonalize R)) = rowsOf (undiagonalize (mixLane 1 x y R))) ∧
    (∀ (x y : Word v) R, mixAt 2 7 8 13 x y (rowsOf (undiagonalize R)) = rowsOf (undiagonalize (mixLane 2 x y R))) ∧
    (∀ (x y : Word v) R, mixAt 3 4 9 14 x y (rowsOf (undiagonalize R)) = rowsOf (undiagonalize (mixLane 3 x y R))) :=
  ⟨fun _ _ _ => rfl, fun _ _ _ => rfl, fun _ _ _ => rfl, fun _ _ _ => rfl⟩

theorem rowsOf_columns (m : Fin 16 → Word v) (s : Fin 16 → Fin 16) (R : VFile v) :
    rowsOf (mixLanes (gather m s 0 R)) =
      mixAt 3 7 11 15 (m (s 6)) (m (s 7)) (mixAt 2 6 10 14 (m (s 4)) (m (s 5))
        (mixAt 1 5 9 13 (m (s 2)) (m (s 3)) (mixAt 0 4 8 12 (m (s 0)) (m (s 1)) (rowsOf R)))) := by
  obtain ⟨h0, h1, h2, h3⟩ := mixAt_column (v := v)
  rw [mixLanes_eq_mixLane, ← h3, ← h2, ← h1, ← h0]
  rfl

theorem rowsOf_diagonals (m : Fin 16 → Word v) (s : Fin 16 → Fin 16) (R : VFile v) :
    rowsOf (undiagonalize (mixLanes (gather m s 8 (diagonalize R)))) =
      mixAt 3 4 9 14 (m (s 14)) (m (s 15)) (mixAt 2 7 8 13 (m (s 12)) (m (s 13))
        (mixAt 1 6 11 12 (m (s 10)) (m (s 11)) (mixAt 0 5 10 15 (m (s 8)) (m (s 9)) (rowsOf R)))) := by
  obtain ⟨h0, h1, h2, h3⟩ := mixAt_diagonal (v := v)
  rw [mixLanes_eq_mixLane, ← h3, ← h2, ← h1, ← h0, ← rowsOf_undiagonalize_diagonalize R]
  rfl

/-! ### One round of the sequencer's program (R153) -/

theorem foldl_shuffle (m : Fin 16 → Word v) (r : Nat) (R : VFile v) :
    ([0x4241, 0x4482, 0x46C3].map SeqItem.uop).foldl (itemRegs m r) R = diagonalize R :=
  foldl_itemRegs_uops m r (words := [0x4241, 0x4482, 0x46C3])
    (ops := [.vshl .VB .VB 1, .vshl .VC .VC 2, .vshl .VD .VD 3]) (congrArg (List.take 3) (shuffle_words_decode v)) R

theorem foldl_unshuffle (m : Fin 16 → Word v) (r : Nat) (R : VFile v) :
    ([0x4245, 0x4486, 0x46C7].map SeqItem.uop).foldl (itemRegs m r) R = undiagonalize R :=
  foldl_itemRegs_uops m r (words := [0x4245, 0x4486, 0x46C7])
    (ops := [.vshr .VB .VB 1, .vshr .VC .VC 2, .vshr .VD .VD 3]) (congrArg (List.drop 3) (shuffle_words_decode v)) R

theorem roundProgram_eq (v : Variant) :
    roundProgram v =
      [.gatherColumn] ++ (gMicroprogram v).map .uop ++ [0x4241, 0x4482, 0x46C3].map .uop ++
      [.gatherDiagonal] ++ (gMicroprogram v).map .uop ++ [0x4245, 0x4486, 0x46C7].map .uop := rfl

theorem foldl_roundProgram (m : Fin 16 → Word v) (r : Nat) (R : VFile v) :
    (roundProgram v).foldl (itemRegs m r) R =
      undiagonalize (mixLanes (gather m (sigma r) 8 (diagonalize (mixLanes (gather m (sigma r) 0 R))))) := by
  rw [roundProgram_eq]
  simp only [List.foldl_append, gMicroprogram_regs, foldl_shuffle, foldl_unshuffle]
  rfl

theorem rowsOf_roundProgram (m : Fin 16 → Word v) (r : Nat) (R : VFile v) :
    rowsOf ((roundProgram v).foldl (itemRegs m r) R) = round m (sigma r) (rowsOf R) := by
  rw [foldl_roundProgram, rowsOf_diagonals, rowsOf_columns]
  rfl

/-! ### All rounds (R145, R160) -/

theorem rowsOf_loadRows (V : Vector (Word v) 16) (R : VFile v) : rowsOf (loadRows V R) = V := by
  ext i hi
  interval_cases i <;> rfl

/-- `n` rounds from round 0 on: the rows hold what the scalar rounds give, and the sequencer is before round `n`. -/
theorem seqRun_rounds (d : Datapath v) (n : Nat) (hn : n < 16) :
    ∃ R : VFile v,
      seqRun (roundLength * n) { d with seq := { busy := true, r := 0, pos := 0, issue := none } } =
        { d with vregs := R, seq := { busy := true, r := BitVec.ofNat 4 n, pos := 0, issue := none } } ∧
      rowsOf R = rounds (leWord d.buf) n (rowsOf d.vregs) := by
  induction n with
  | zero => exact ⟨d.vregs, rfl, rfl⟩
  | succ n ih =>
    obtain ⟨R, hrun, hrows⟩ := ih (by omega)
    have hround : (BitVec.ofNat 4 n).toNat = n := Nat.mod_eq_of_lt (by omega)
    refine ⟨(roundProgram v).foldl (itemRegs (leWord d.buf) n) R, ?_, ?_⟩
    · rw [Nat.mul_succ, seqRun_add, hrun, seqRun_round _ rfl rfl]
      simp only [hround, BitVec.ofNat_add]
      rfl
    · rw [rowsOf_roundProgram, hrows]
      rfl

/-- Settles O20: the load puts the working vector into the rows, ROUNDS rounds of the sequencer are the scalar rounds
on it, and the output folds the rows into `S.h`. -/
theorem datapathComputesCompress : Obligations.DatapathComputesCompress := by
  intro v t last d
  have hrounds : v.rounds < 16 := by cases v <;> decide
  obtain ⟨R, hrun, hrows⟩ :=
    seqRun_rounds { d with vregs := loadRows (workingVector d.h t last) d.vregs } v.rounds hrounds
  rw [rowsOf_loadRows] at hrows
  refine ⟨R, ?_⟩
  rw [compressDatapath, seqLoad, hrun, seqOutput, hrows]
  rfl

end Sys2Proof.Machine
end

section
/-! PROOFS. What `exec` answers for INIT, UPDATE, FINAL and ABORT (42_streaming.md), and the context INIT sets up and
ABORT drops. -/

namespace Sys2Proof.Machine

variable {s : State}

/-! ### What `exec` answers -/

theorem exec_init_of_legal {nn kk : BitVec 7} (hnn : 1 ≤ nn.toNat) (hmax : nn.toNat ≤ s.variant.nnMax)
    (hkk : kk.toNat ≤ s.variant.kkMax) : exec (.init nn kk) s = .next (newContext nn kk (abortState s)) :=
  if_pos (decide_eq_true ⟨hnn, hmax, hkk⟩)

theorem exec_init_of_out_of_bounds {nn kk : BitVec 7}
    (h : nn.toNat = 0 ∨ s.variant.nnMax < nn.toNat ∨ s.variant.kkMax < kk.toNat) :
    exec (.init nn kk) s = .next (fail .param (abortState s)) := by
  refine if_neg fun hok => ?_
  obtain ⟨hnn, hmax, hkk⟩ := of_decide_eq_true hok
  omega

theorem phase_of_accepting : ∀ {p : Phase}, p.accepting = true → p = .fresh ∨ p = .absorbing
  | .fresh, _ => .inl rfl
  | .absorbing, _ => .inr rfl

/-- R175: in FRESH and ABSORBING the operand decides. -/
theorem exec_update_of_accepting (len : BitVec 8) (hp : s.phase.accepting = true) :
    exec (.update len) s =
      if updateOperandOk len then .next (absorbBytes (dinBytes s len.toNat) s) else .next (fail .param s) := by
  rcases phase_of_accepting hp with hp | hp <;> simp [exec, execUpdate, hp]

theorem exec_update_of_le {len : BitVec 8} (hp : s.phase.accepting = true) (hlen : len.toNat ≤ 128) :
    exec (.update len) s = .next (absorbBytes (dinBytes s len.toNat) s) :=
  (exec_update_of_accepting len hp).trans (if_pos (decide_eq_true hlen))

theorem exec_update_of_gt {len : BitVec 8} (hp : s.phase.accepting = true) (hlen : 128 < len.toNat) :
    exec (.update len) s = .next (fail .param s) :=
  (exec_update_of_accepting len hp).trans (if_neg fun hok => Nat.not_le.mpr hlen (of_decide_eq_true hok))

theorem exec_update_out_of_sequence (len : BitVec 8) (hp : s.phase = .none ∨ s.phase = .finalized) :
    exec (.update len) s = .next (fail .seq s) := by
  rcases hp with hp | hp <;> simp [exec, execUpdate, hp]

theorem exec_final_of_accepting (hp : s.phase.accepting = true) : exec .final s = .next (finalize s) := by
  rcases phase_of_accepting hp with hp | hp <;> simp [exec, execFinal, hp]

theorem exec_final_out_of_sequence (hp : s.phase = .none ∨ s.phase = .finalized) :
    exec .final s = .next (fail .seq s) := by
  rcases hp with hp | hp <;> simp [exec, execFinal, hp]

/-- R93: an instruction with the mnemonic of a command row is encoded under that row's pattern. -/
theorem encode_under_commandRow {row : CommandRow} {i : Instr} (hrow : row ∈ commandTable)
    (hname : row.mnemonic = i.mnemonic) : ∃ cw, encode i = .cmd32 cw ∧ cw &&& row.mask = row.pattern := by
  have hapart : ∀ row ∈ commandTable, ∀ uop ∈ microOpTable, uop.mnemonic ≠ row.mnemonic := by decide
  have hunique : ∀ row ∈ commandTable, ∀ row' ∈ commandTable, row'.mnemonic = row.mnemonic → row' = row := by decide
  rcases fitsItsRow i with ⟨cw, henc, row', hrow', hname', hfit⟩ | ⟨_, _, uop, huop, huopName, _⟩
  · obtain rfl := hunique row hrow row' hrow' (hname'.trans hname.symm)
    exact ⟨cw, henc, beq_iff_eq.mp hfit⟩
  · exact absurd (huopName.trans hname.symm) (hapart row hrow uop huop)

/-! ### INIT (R146, R170, R171) -/

/-- R146: the parameter block is one xor into `IV[0]`. -/
theorem initialH_zero (v : Variant) (nn kk : BitVec 7) :
    (initialH v nn kk)[0] = (iv v)[0] ^^^ BitVec.ofNat v.w (0x01010000 ^^^ kk.toNat <<< 8 ^^^ nn.toNat) := by
  have hshift : kk.setWidth v.w <<< 8 = BitVec.ofNat v.w (kk.toNat <<< 8) :=
    BitVec.eq_of_toNat_eq (by simp [BitVec.toNat_shiftLeft, Nat.shiftLeft_eq])
  simp only [initialH, Vector.getElem_set_self, BitVec.ofNat_xor, hshift, BitVec.ofNat_toNat, BitVec.xor_assoc]

theorem initialH_of_ne_zero (v : Variant) (nn kk : BitVec 7) {i : Fin 8} (hi : i ≠ 0) :
    (initialH v nn kk)[i] = (iv v)[i] :=
  Vector.getElem_set_ne (by decide) i.isLt fun h => hi (Fin.ext h.symm)

/-- R171: the key's bytes, then zeros. -/
theorem keyBlock_getElem (s : State) (kk : Nat) (j : Fin s.variant.bb) :
    (keyBlock s kk)[j] = if j.val < kk then keyByte s j.val else 0 :=
  Vector.getElem_ofFn j.isLt

theorem toNat_eq_zero_iff (kk : BitVec 7) : kk.toNat = 0 ↔ kk = 0 := BitVec.toNat_inj (y := 0)

/-- Settles O21: the operand check picks the new context or the failure entry, each on a dropped context. -/
theorem initSetsUpAContext : Obligations.InitSetsUpAContext := by
  refine ⟨fun s nn kk hnn hmax hkk => ?_, fun s nn kk h => exec_init_of_out_of_bounds h, fun nn kk => ?_⟩
  · refine ⟨initialH s.variant nn kk, keyBlock s kk.toNat, ?_, initialH_zero _ nn kk,
      fun i => initialH_of_ne_zero _ nn kk, keyBlock_getElem s kk.toNat⟩
    rw [exec_init_of_legal hnn hmax hkk, if_congr (toNat_eq_zero_iff kk) rfl rfl]
    rfl
  · exact encode_under_commandRow (row := { mnemonic := "INIT", pattern := 0x10000000, mask := 0xFFFF8080 })
      (by decide) rfl

/-! ### ABORT (R190) -/

/-- Settles O27: ABORT is `ABORT_STATE` in every phase. -/
theorem abortDropsTheContext : Obligations.AbortDropsTheContext := ⟨fun _ => rfl, rfl⟩

end Sys2Proof.Machine
end

section
/-! PROOFS. UPDATE (R175 to R178): absorbing a string of bytes is ABSORB over the context alone, up to the counter's
limit. -/

namespace Sys2Proof.Machine

/-! ### The counter and the fill -/

theorem toNat_add_one {t : BitVec 64} (h : t.toNat + 1 < 2 ^ 64) : (t + 1).toNat = t.toNat + 1 := by
  rw [BitVec.toNat_add]
  exact Nat.mod_eq_of_lt h

theorem ne_allOnes_of_lt {t : BitVec 64} (h : t.toNat + 1 < 2 ^ 64) : t ≠ BitVec.allOnes 64 := by
  rintro rfl
  exact absurd h (by decide)

/-- R176: below a full block and the counter's limit, one byte adds one to the fill. -/
theorem fill_add_one (v : Variant) {t : BitVec 64} (hroom : fill v t < v.bb) (hlt : t.toNat + 1 < 2 ^ 64) :
    fill v (t + 1) = fill v t + 1 := by
  rw [fill_succ v (ne_allOnes_of_lt hlt), mod_eq_fill v hroom]

theorem fill_add_one_le (v : Variant) {t : BitVec 64} (hlt : t.toNat + 1 < 2 ^ 64) :
    fill v (t + 1) ≤ fill v t + 1 := by
  rcases (fill_le v t).lt_or_eq with hroom | hfull
  · exact (fill_add_one v hroom hlt).le
  · exact hfull ▸ (fill_le v (t + 1)).trans (Nat.le_succ _)

/-! ### ABSORB over the context (R176) -/

section

variable {v : Variant} {c : AbsorbCtx v}

theorem absorbOne_of_full (b : Byte) (h : fill v c.t = v.bb) :
    absorbOne c b =
      { h := compress c.h (leWord c.buf) c.t false
        buf := (Vector.replicate v.bb 0).set (c.t.toNat % v.bb) b (Nat.mod_lt _ v.bb_pos)
        t := c.t + 1 } := by
  simp only [absorbOne, if_pos h]

theorem absorbOne_of_not_full (b : Byte) (h : fill v c.t ≠ v.bb) :
    absorbOne c b =
      { h := c.h, buf := c.buf.set (c.t.toNat % v.bb) b (Nat.mod_lt _ v.bb_pos), t := c.t + 1 } := by
  simp only [absorbOne, if_neg h]

theorem absorbOne_foldl_t (bs : List Byte) (c : AbsorbCtx v) :
    (bs.foldl absorbOne c).t = c.t + BitVec.ofNat 64 bs.length := by
  induction bs generalizing c with
  | nil => simp
  | cons b bs ih =>
    rw [List.foldl_cons, ih, List.length_cons, Nat.add_comm, BitVec.ofNat_add, ← BitVec.add_assoc]
    rfl

/-- R176: bytes that find no full block go to the positions from the fill on, and nothing is compressed. -/
theorem absorbOne_foldl_within_block (bs : List Byte) (c : AbsorbCtx v) (hroom : fill v c.t + bs.length ≤ v.bb)
    (hlt : c.t.toNat + bs.length < 2 ^ 64) :
    (bs.foldl absorbOne c).h = c.h ∧ ∀ j : Fin v.bb, (bs.foldl absorbOne c).buf[j] =
      if fill v c.t ≤ j.val ∧ j.val < fill v c.t + bs.length then bs.getD (j.val - fill v c.t) 0 else c.buf[j] := by
  induction bs generalizing c with
  | nil => exact ⟨rfl, fun j => (if_neg (by rw [List.length_nil]; omega)).symm⟩
  | cons b bs ih =>
    rw [List.length_cons] at hroom hlt
    have hnotFull : fill v c.t < v.bb := by omega
    have hlimit : c.t.toNat + 1 < 2 ^ 64 := by omega
    have hfill := fill_add_one v hnotFull hlimit
    have hbyte := absorbOne_of_not_full b (Nat.ne_of_lt hnotFull)
    obtain ⟨hh, hbuf⟩ := ih (absorbOne c b) (by rw [hbyte, hfill]; omega) (by rw [hbyte, toNat_add_one hlimit]; omega)
    simp only [hbyte, hfill, mod_eq_fill v hnotFull] at hh hbuf
    simp only [List.foldl_cons, hbyte, mod_eq_fill v hnotFull, List.length_cons]
    refine ⟨hh, fun j => (hbuf j).trans ?_⟩
    have hset : (c.buf.set (fill v c.t) b hnotFull)[j] = if fill v c.t = j.val then b else c.buf[j] :=
      Vector.getElem_set hnotFull j.isLt
    rw [hset]
    rcases Nat.lt_trichotomy j.val (fill v c.t) with hj | hj | hj
    · rw [if_neg (by omega), if_neg (by omega), if_neg (by omega)]
    · rw [if_neg (by omega), if_pos hj.symm, if_pos (by omega), hj, Nat.sub_self]
      rfl
    · rw [if_neg (by omega : fill v c.t ≠ j.val)]
      refine if_congr (by omega) ?_ rfl
      rw [show j.val - fill v c.t = j.val - (fill v c.t + 1) + 1 by omega, List.getD_cons_succ]

end

/-! ### One byte in the state (R176) -/

/-- R160: one compression in the state: `S.h` is COMPRESS of the buffer, the vector registers are used, and the
sequencer is idle after it. -/
theorem compressState_computes_compress (last : Bool) (s : State) : ∃ V : VFile s.variant,
    compressState last s = { s with
      dp := { s.dp with h := compress s.dp.h (leWord s.dp.buf) s.t last, vregs := V, seq := Seq.idle } } := by
  obtain ⟨V, hV⟩ := datapathComputesCompress s.variant s.t last s.dp
  exact ⟨V, by rw [compressState, hV]⟩

/-- The state whose context is `c`, in phase `p`, with the vector registers and the sequencer as a compression may have
left them. -/
def State.withContext (s : State) (c : AbsorbCtx s.variant) (V : VFile s.variant) (q : Seq) (p : Phase) : State :=
  { s with dp := { h := c.h, buf := c.buf, vregs := V, seq := q }, t := c.t, phase := p }

/-- R176: the next byte, after a full block is flushed, is `absorbOne` on the context. -/
theorem storeByte_flushFull (b : Byte) (s : State) : ∃ (V : VFile s.variant) (q : Seq),
    storeByte b (flushFull s) = s.withContext (absorbOne s.absorbCtx b) V q .absorbing ∧
    (V = s.dp.vregs ∧ q = s.dp.seq ∨ fill s.variant s.t = s.variant.bb ∧ q = Seq.idle) := by
  by_cases hfull : fill s.variant s.t = s.variant.bb
  · obtain ⟨V, hV⟩ := compressState_computes_compress false s
    refine ⟨V, Seq.idle, ?_, .inr ⟨hfull, rfl⟩⟩
    rw [flushFull_of_full hfull, hV, absorbOne_of_full b hfull]
    rfl
  · refine ⟨s.dp.vregs, s.dp.seq, ?_, .inl ⟨rfl, rfl⟩⟩
    rw [flushFull_of_not_full hfull, absorbOne_of_not_full b hfull]
    rfl

/-! ### A string of bytes in the state (R175, R178) -/

/-- R175, R176: below the counter's limit, absorbing bytes is ABSORB over the context; the datapath works only where a
byte finds the block full. -/
theorem absorbBytes_eq_withContext (bs : List Byte) (s : State) (hlt : s.t.toNat + bs.length < 2 ^ 64) :
    ∃ (V : VFile s.variant) (q : Seq),
      absorbBytes bs s = s.withContext (bs.foldl absorbOne s.absorbCtx) V q
        (if bs.length = 0 then s.phase else .absorbing) ∧
      (V = s.dp.vregs ∧ q = s.dp.seq ∨ s.variant.bb < fill s.variant s.t + bs.length ∧ q = Seq.idle) := by
  induction bs generalizing s with
  | nil => exact ⟨s.dp.vregs, s.dp.seq, rfl, .inl ⟨rfl, rfl⟩⟩
  | cons b bs ih =>
    rw [List.length_cons] at hlt
    have hlimit : s.t.toNat + 1 < 2 ^ 64 := by omega
    have hlt' : (s.t + 1).toNat + bs.length < 2 ^ 64 := by
      rw [toNat_add_one hlimit]
      omega
    obtain ⟨V, q, hbyte, hq⟩ := storeByte_flushFull b s
    obtain ⟨V', q', hbytes, hq'⟩ := ih (s.withContext (absorbOne s.absorbCtx b) V q .absorbing) hlt'
    refine ⟨V', q', ?_, ?_⟩
    · rw [absorbBytes_cons, if_neg (ne_allOnes_of_lt hlimit), hbyte, hbytes]
      exact congrArg (s.withContext _ V' q') (ite_self Phase.absorbing)
    · rw [List.length_cons]
      rcases hq' with ⟨hvregs, hseq⟩ | ⟨hflush, hidle⟩
      · exact hq.imp (And.imp hvregs.trans hseq.trans) (And.imp (by omega) hseq.trans)
      · have hle : fill s.variant (s.t + 1) ≤ fill s.variant s.t + 1 := fill_add_one_le s.variant hlimit
        have hflush : s.variant.bb < fill s.variant (s.t + 1) + bs.length := hflush
        exact .inr ⟨by omega, hidle⟩

/-- R178: at `2^64 − 1` the next byte fails, whatever was absorbed before it. -/
theorem absorbBytes_overflow (bs : List Byte) (s : State) (hlimit : 2 ^ 64 ≤ s.t.toNat + bs.length) :
    ∃ (V : VFile s.variant) (q : Seq) (c : AbsorbCtx s.variant) (p : Phase), c.t = BitVec.allOnes 64 ∧
      absorbBytes bs s = fail .overflow (s.withContext c V q p) := by
  obtain ⟨room, hroom⟩ := Nat.exists_eq_add_of_le (Nat.le_sub_one_of_lt s.t.isLt)
  have hlength : (bs.take room).length = room := List.length_take_of_le (by omega)
  obtain ⟨b, rest, hrest⟩ := List.exists_cons_of_length_pos (l := bs.drop room) (by rw [List.length_drop]; omega)
  obtain ⟨V, q, hbytes, -⟩ := absorbBytes_eq_withContext (bs.take room) s (by omega)
  have ht : ((bs.take room).foldl absorbOne s.absorbCtx).t = BitVec.allOnes 64 := by
    have hlast : BitVec.allOnes 64 = BitVec.ofNat 64 (s.t.toNat + room) := by
      rw [← hroom]
      rfl
    rw [absorbOne_foldl_t, hlength, hlast, BitVec.ofNat_add, BitVec.ofNat_toNat, BitVec.setWidth_eq]
    rfl
  have hfail : absorbBytes bs s = absorbBytes (b :: rest) (absorbBytes (bs.take room) s) := by
    rw [← absorbBytes_append, ← hrest, List.take_append_drop]
  rw [hfail, hbytes, absorbBytes_cons]
  exact ⟨V, q, _, _, ht, if_pos ht⟩

/-! ### The statements -/

theorem dinBytes_length (s : State) (len : Nat) : (dinBytes s len).length = len := by simp [dinBytes]

theorem dinBytes_getD (s : State) {len i : Nat} (h : i < len) : (dinBytes s len).getD i 0 = dinByte s i := by
  simp [dinBytes, h]

/-- R175: what a completed UPDATE below the counter's limit answers. -/
theorem exec_update_eq_withContext {s : State} {len : BitVec 8} (hp : s.phase.accepting = true)
    (hlen : len.toNat ≤ 128) (hlt : s.t.toNat + len.toNat < 2 ^ 64) :
    ∃ (V : VFile s.variant) (q : Seq) (h : Vector (Word s.variant) 8) (buf : Vector Byte s.variant.bb),
      exec (.update len) s = .next (s.withContext { h := h, buf := buf, t := s.t + len.setWidth 64 } V q
        (if len.toNat = 0 then s.phase else .absorbing)) ∧
      (dinBytes s len.toNat).foldl absorbOne s.absorbCtx = { h := h, buf := buf, t := s.t + len.setWidth 64 } ∧
      (V = s.dp.vregs ∧ q = s.dp.seq ∨ s.variant.bb < fill s.variant s.t + len.toNat ∧ q = Seq.idle) := by
  have hlength := dinBytes_length s len.toNat
  obtain ⟨V, q, hbytes, hq⟩ := absorbBytes_eq_withContext (dinBytes s len.toNat) s (by rwa [hlength])
  have ht := absorbOne_foldl_t (dinBytes s len.toNat) s.absorbCtx
  rw [hlength] at hbytes hq ht
  rw [exec_update_of_le hp hlen, hbytes]
  generalize (dinBytes s len.toNat).foldl absorbOne s.absorbCtx = c at ht ⊢
  obtain ⟨h, buf, t⟩ := c
  obtain rfl : t = s.t + len.setWidth 64 := by rw [← BitVec.ofNat_toNat]; exact ht
  exact ⟨V, q, h, buf, rfl, rfl, hq⟩

/-- Settles O24: with no byte to absorb, `absorbBytes` is the identity. -/
theorem zeroLengthUpdateChangesNothing : Obligations.ZeroLengthUpdateChangesNothing :=
  fun _ hp => exec_update_of_le hp (by decide)

/-- Settles O23: no byte finds the block full, so the vector registers and the sequencer are as before, and the bytes
of DIN go to the buffer from the fill on. -/
theorem updateWithinABlockCompressesNothing : Obligations.UpdateWithinABlockCompressesNothing := by
  intro s len hp hlen hroom hlt
  have hlength := dinBytes_length s len.toNat
  obtain ⟨V, q, h, buf, hexec, hctx, ⟨rfl, rfl⟩ | ⟨hflush, -⟩⟩ := exec_update_eq_withContext hp hlen hlt
  · obtain ⟨hh, hbuf⟩ := absorbOne_foldl_within_block (dinBytes s len.toNat) s.absorbCtx
      (by rwa [hlength]) (by rwa [hlength])
    rw [hctx] at hh hbuf
    obtain rfl : h = s.dp.h := hh
    refine ⟨buf, hexec, fun j => (hbuf j).trans ?_⟩
    rw [hlength]
    exact ite_congr rfl (fun ⟨hlo, hhi⟩ => dinBytes_getD s (Nat.sub_lt_left_of_lt_add hlo hhi)) fun _ => rfl
  · exact absurd hroom (Nat.not_le.mpr hflush)

/-- Settles O25: the bytes up to the limit are absorbed, and the one after them takes the failure entry. -/
theorem counterOverflowFails : Obligations.CounterOverflowFails := by
  intro s len hp hlen hlimit
  obtain ⟨V, q, c, p, ht, hfail⟩ := absorbBytes_overflow (dinBytes s len.toNat) s (by rwa [dinBytes_length])
  refine ⟨{ h := Vector.replicate 8 0, buf := Vector.replicate s.variant.bb 0, vregs := V, seq := q }, ?_, rfl, rfl⟩
  rw [exec_update_of_le hp hlen, hfail, ← ht]
  rfl

/-- Settles O22: below the limit UPDATE is ABSORB over the bytes of DIN; the failures are those of the phase, the
operand and the counter. -/
theorem updateAbsorbsTheDinBytes : Obligations.UpdateAbsorbsTheDinBytes := by
  refine ⟨fun s len hp hlen hlt => ?_, fun s len => exec_update_out_of_sequence len,
    fun s len => exec_update_of_gt, fun s len hp hlen hlimit => ?_, fun len => ?_⟩
  · obtain ⟨V, q, h, buf, hexec, hctx, hq⟩ := exec_update_eq_withContext hp hlen hlt
    exact ⟨{ h := h, buf := buf, vregs := V, seq := q }, hexec, hctx.symm, hq.imp And.right And.right⟩
  · obtain ⟨d, hexec, -, -⟩ := counterOverflowFails s len hp hlen hlimit
    exact ⟨_, hexec, rfl, fun herr => if_pos herr⟩
  · exact encode_under_commandRow (row := { mnemonic := "UPDATE", pattern := 0x20000000, mask := 0xFFFFFF00 })
      (by decide) rfl

end Sys2Proof.Machine
end

section
/-! PROOFS. FINAL (R185, R186, R200): the padded block, the last compression, and the digest register. -/

namespace Sys2Proof.Machine

/-- R186: the buffer as FINAL pads it. -/
theorem padBuf_getElem (s : State) (j : Fin s.variant.bb) :
    (padBuf s).dp.buf[j] = if j.val < fill s.variant s.t then s.dp.buf[j] else 0 := by
  refine (Vector.getElem_ofFn j.isLt).trans ?_
  simp [bufByte]

/-- R185: what FINAL leaves: the padded buffer, its compression with the flag set, and the digest of the outcome. -/
theorem finalize_digests_compress (s : State) : ∃ V : VFile s.variant,
    finalize s = { s with
      dp :=
        { h := compress s.dp.h (leWord (padBuf s).dp.buf) s.t true
          buf := (padBuf s).dp.buf
          vregs := V
          seq := Seq.idle }
      dig := digestOf s.nn (compress s.dp.h (leWord (padBuf s).dp.buf) s.t true)
      eq := false
      cmpv := false
      phase := .finalized } := by
  obtain ⟨V, hV⟩ := compressState_computes_compress true (padBuf s)
  exact ⟨V, by rw [finalize, hV]; rfl⟩

/-- R200: a byte of the digest is the byte of the word it falls in. -/
theorem digestOf_toNat {v : Variant} (nn : BitVec 7) (h : Vector (Word v) 8) {k : Fin 64} {i : Fin 8}
    (hi : k.val / v.wb = i.val) (hk : k.val < nn.toNat) :
    (digestOf nn h)[k].toNat = (h[i].toNat >>> (8 * (k.val % v.wb))) % 256 := by
  have hwb : 0 < v.wb := by cases v <;> decide
  have hbyte : (digestOf nn h)[k] = leByte h k.val := by simp [digestOf, hk]
  rw [hbyte, ← byteOf_toNat, ← leByte_word h i (Nat.mod_lt _ hwb), ← hi, Nat.div_add_mod]

/-- Settles O26: FINAL is `finalize` in the phases with a context, and the digest is cut from the last compression. -/
theorem finalProducesTheDigest : Obligations.FinalProducesTheDigest := by
  refine ⟨fun s hp => ?_, fun s => exec_final_out_of_sequence, rfl⟩
  obtain ⟨V, hfinal⟩ := finalize_digests_compress s
  exact ⟨_, _, (exec_final_of_accepting hp).trans (congrArg _ hfinal), padBuf_getElem s, rfl,
    fun k i => digestOf_toNat s.nn _, digestOf_tail s.nn _, rfl⟩

end Sys2Proof.Machine
end

section
/-! PROOFS. Streaming equals the one-shot hash (R170 to R187, R195): the context after a byte string is the one R180
gives its blocks, however the string was cut. -/

namespace Sys2Proof.Machine

section

variable {v : Variant} {h : Vector (Word v) 8} {data : List Byte}

/-! ### Blocks of a byte string (R180) -/

theorem blockOf_getElem (data : List Byte) (n : Nat) (j : Fin v.bb) :
    (blockOf v data n)[j] = data.getD (v.bb * n + j.val) 0 :=
  Vector.getElem_ofFn j.isLt

/-- A block that a string fills is not changed by what follows it. -/
theorem blockOf_append {n : Nat} (xs : List Byte) (hn : (n + 1) * v.bb ≤ data.length) :
    blockOf v (data ++ xs) n = blockOf v data n := by
  refine congrArg Vector.ofFn (funext fun j => List.getD_append _ _ _ _ ?_)
  have := j.isLt
  rw [Nat.mul_comm, Nat.mul_succ] at hn
  omega

/-- A block past the end of a string is all padding. -/
theorem blockOf_of_length_le {n : Nat} (hn : data.length ≤ v.bb * n) : blockOf v data n = Vector.replicate v.bb 0 := by
  refine Vector.ext fun j hj => ?_
  rw [Vector.getElem_replicate]
  exact (blockOf_getElem data n ⟨j, hj⟩).trans (List.getD_eq_default _ _ (hn.trans (Nat.le_add_right _ j)))

theorem getD_concat (data : List Byte) (b : Byte) (k : Nat) :
    (data ++ [b]).getD k 0 = if data.length = k then b else data.getD k 0 := by
  rcases Nat.lt_trichotomy k data.length with hk | rfl | hk
  · rw [List.getD_append _ _ _ _ hk, if_neg (by omega)]
  · simp
  · rw [if_neg (by omega), List.getD_eq_default _ _ hk.le, List.getD_eq_default]
    simpa using hk

/-- One byte more goes to the block, and the place in it, that its position gives. -/
theorem blockOf_concat (data : List Byte) (b : Byte) :
    blockOf v (data ++ [b]) (data.length / v.bb) =
      (blockOf v data (data.length / v.bb)).set (data.length % v.bb) b (Nat.mod_lt _ v.bb_pos) := by
  have hdiv := Nat.div_add_mod data.length v.bb
  refine Vector.ext fun j hj => ?_
  rw [Vector.getElem_set]
  refine (blockOf_getElem _ _ ⟨j, hj⟩).trans ((getD_concat _ _ _).trans ?_)
  exact if_congr (by dsimp only; omega) rfl (blockOf_getElem _ _ ⟨j, hj⟩).symm

theorem chainBlocks_append {n : Nat} (xs : List Byte) (hn : n * v.bb ≤ data.length) :
    chainBlocks h (data ++ xs) n = chainBlocks h data n := by
  induction n with
  | zero => rfl
  | succ n ih =>
    rw [chainBlocks, chainBlocks, blockOf_append xs hn, ih (hn.trans' (Nat.mul_le_mul_right _ n.le_succ))]

/-- R180: the last block begins before the last byte. -/
theorem blockCount_sub_one (v : Variant) (total : Nat) : blockCount v total - 1 = (total - 1) / v.bb := by
  have hb := v.bb_pos
  unfold blockCount
  rcases Nat.eq_zero_or_pos total with rfl | hpos
  · rw [Nat.zero_add, Nat.div_eq_of_lt (by omega), Nat.zero_sub, Nat.zero_div]
    rfl
  · rw [show total + v.bb - 1 = total - 1 + v.bb by omega, Nat.add_div_right _ hb, Nat.max_eq_right (Nat.succ_pos _),
      Nat.succ_sub_one]

/-- R26: the fill at a string's counter is the length of its last block. -/
theorem fill_ofNat {total : Nat} (hlt : total < 2 ^ 64) :
    v.bb * ((total - 1) / v.bb) + fill v (BitVec.ofNat 64 total) = total := by
  have hnat : (BitVec.ofNat 64 total).toNat = total := Nat.mod_eq_of_lt hlt
  rw [fill_eq_toNat, hnat]
  split
  · simp [*]
  · have := Nat.div_add_mod (total - 1) v.bb
    omega

/-! ### The context of a byte string (R176, R180) -/

/-- The context that R180 gives a byte string: every block but the last compressed, and the last one buffered. -/
def contextOf (h : Vector (Word v) 8) (data : List Byte) : AbsorbCtx v :=
  { h := chainBlocks h data (blockCount v data.length - 1)
    buf := blockOf v data (blockCount v data.length - 1)
    t := BitVec.ofNat 64 data.length }

theorem contextOf_t_toNat (h : Vector (Word v) 8) (hlt : data.length < 2 ^ 64) :
    (contextOf h data).t.toNat = data.length := Nat.mod_eq_of_lt hlt

/-- A string that fits one block is buffered, with nothing compressed. -/
theorem contextOf_of_length_le (h : Vector (Word v) 8) (hle : data.length ≤ v.bb) :
    contextOf h data = { h := h, buf := blockOf v data 0, t := BitVec.ofNat 64 data.length } := by
  have hb := v.bb_pos
  have hlast : blockCount v data.length - 1 = 0 := by
    rw [blockCount_sub_one]
    exact Nat.div_eq_of_lt (by omega)
  rw [contextOf, hlast]
  rfl

/-- R23, R186: the buffered block is zero from the fill on. -/
theorem contextOf_bufTail (h : Vector (Word v) 8) (hlt : data.length < 2 ^ 64) (j : Fin v.bb)
    (hj : fill v (contextOf h data).t ≤ j.val) : (contextOf h data).buf[j] = 0 := by
  have hfill := fill_ofNat (v := v) hlt
  refine (blockOf_getElem _ _ j).trans (List.getD_eq_default _ _ ?_)
  rw [blockCount_sub_one]
  exact hfill.ge.trans (Nat.add_le_add_left hj _)

/-- R176: once a full block is flushed, the next byte's block is in the buffer and those before it are compressed. -/
theorem absorbOne_contextOf_flush (h : Vector (Word v) 8) (hlt : data.length < 2 ^ 64) (b : Byte) :
    absorbOne (contextOf h data) b =
      { h := chainBlocks h data (data.length / v.bb)
        buf := (blockOf v data (data.length / v.bb)).set (data.length % v.bb) b (Nat.mod_lt _ v.bb_pos)
        t := BitVec.ofNat 64 data.length + 1 } := by
  have hfill : v.bb * ((data.length - 1) / v.bb) + fill v (contextOf h data).t = data.length := fill_ofNat hlt
  by_cases hfull : fill v (contextOf h data).t = v.bb
  · have hlen : data.length = v.bb * ((data.length - 1) / v.bb + 1) := by
      rw [Nat.mul_succ]
      omega
    have hdiv : data.length / v.bb = (data.length - 1) / v.bb + 1 := by
      rw [Nat.div_eq_iff_eq_mul_right v.bb_pos (Dvd.intro _ hlen.symm)]
      exact hlen
    rw [absorbOne_of_full b hfull]
    simp only [contextOf_t_toNat h hlt, hdiv, blockOf_of_length_le hlen.le, chainBlocks]
    simp only [contextOf, blockCount_sub_one]
    rw [Nat.mul_comm _ v.bb, ← hlen]
  · have hroom : fill v (contextOf h data).t < v.bb := (fill_le _ _).lt_of_ne hfull
    have hdiv : data.length / v.bb = (data.length - 1) / v.bb :=
      Nat.div_eq_of_lt_le (by rw [Nat.mul_comm]; omega) (by rw [Nat.mul_comm, Nat.mul_succ]; omega)
    rw [absorbOne_of_not_full b hfull]
    simp only [contextOf_t_toNat h hlt, hdiv]
    simp only [contextOf, blockCount_sub_one]

theorem absorbOne_contextOf (h : Vector (Word v) 8) (hlt : data.length < 2 ^ 64) (b : Byte) :
    absorbOne (contextOf h data) b = contextOf h (data ++ [b]) := by
  rw [absorbOne_contextOf_flush h hlt]
  simp only [contextOf, List.length_append, List.length_singleton, blockCount_sub_one, Nat.add_sub_cancel,
    blockOf_concat, chainBlocks_append [b] (Nat.div_mul_le_self _ _), BitVec.ofNat_add]
  rfl

/-- R179: absorbing more bytes gives the context of the longer string. -/
theorem absorbOne_foldl_contextOf (h : Vector (Word v) 8) (bs : List Byte) (hlt : data.length + bs.length < 2 ^ 64) :
    bs.foldl absorbOne (contextOf h data) = contextOf h (data ++ bs) := by
  induction bs generalizing data with
  | nil => simp
  | cons b bs ih =>
    rw [List.length_cons] at hlt
    rw [List.foldl_cons, absorbOne_contextOf h (by omega),
      ih (by rw [List.length_append, List.length_singleton]; omega), List.append_assoc, List.singleton_append]

/-! ### The counted bytes (R171) -/

theorem countedBytes_eq_append (v : Variant) (key msg : List Byte) :
    countedBytes v key msg = countedBytes v key [] ++ msg := by
  unfold countedBytes
  split <;> simp

theorem countedBytes_nil_of_ne_nil {key : List Byte} (hne : key ≠ []) :
    countedBytes v key [] = key ++ List.replicate (v.bb - key.length) 0 := by
  rw [countedBytes, if_neg (by simpa using hne), List.append_nil]

/-- A key takes a whole block, and no key takes nothing. -/
theorem countedBytes_nil_length {key : List Byte} (hkey : key.length ≤ v.bb) :
    (countedBytes v key []).length = if key.length = 0 then 0 else v.bb := by
  by_cases hnil : key = []
  · subst hnil
    rfl
  · rw [countedBytes_nil_of_ne_nil hnil, if_neg (by simpa using hnil), List.length_append, List.length_replicate,
      Nat.add_sub_cancel' hkey]

/-- The key's block is the key, then zeros. -/
theorem countedBytes_nil_getD (v : Variant) (key : List Byte) (i : Nat) :
    (countedBytes v key []).getD i 0 = key.getD i 0 := by
  by_cases hnil : key = []
  · subst hnil
    rfl
  · rw [countedBytes_nil_of_ne_nil hnil]
    rcases Nat.lt_or_ge i key.length with hi | hi
    · exact List.getD_append _ _ _ _ hi
    · rw [List.getD_append_right _ _ _ _ hi, List.getD_eq_default _ _ hi]
      exact List.getElem?_getD_replicate_default_eq 0 _ _

end

/-! ### The machine -/

/-- An accepting state with the context of the byte string `data` under INIT's operands. -/
structure HoldsData (s : State) (nn kk : BitVec 7) (data : List Byte) : Prop where
  accepting : s.phase.accepting = true
  digestLength : s.nn = nn
  context : s.absorbCtx = contextOf (initialH s.variant nn kk) data

variable {s s' : State} {nn kk : BitVec 7} {data : List Byte}

/-- R171: the key INIT reads from the KEY window. -/
def keyBytes (s : State) (kk : Nat) : List Byte := (List.range kk).map (keyByte s)

theorem keyBytes_length (s : State) (kk : Nat) : (keyBytes s kk).length = kk := by simp [keyBytes]

theorem keyBytes_getD (s : State) (kk i : Nat) : (keyBytes s kk).getD i 0 = if i < kk then keyByte s i else 0 := by
  unfold keyBytes
  split <;> simp [*]

/-- R8, R9: a legal key fits a block. -/
theorem kkMax_le_bb (v : Variant) : v.kkMax ≤ v.bb := by cases v <;> decide

/-- R171: INIT's block buffer is the first block of the counted bytes. -/
theorem keyBlock_eq_blockOf (s : State) (kk : Nat) :
    keyBlock s kk = blockOf s.variant (countedBytes s.variant (keyBytes s kk) []) 0 :=
  congrArg Vector.ofFn (funext fun i => by
    rw [Nat.mul_zero, Nat.zero_add, countedBytes_nil_getD, keyBytes_getD])

theorem countedBytes_keyBytes_length (s : State) (hkk : kk.toNat ≤ s.variant.kkMax) :
    (countedBytes s.variant (keyBytes s kk.toNat) []).length = if kk = 0 then 0 else s.variant.bb := by
  rw [countedBytes_nil_length (by rw [keyBytes_length]; exact hkk.trans (kkMax_le_bb _)), keyBytes_length]
  exact if_congr (toNat_eq_zero_iff kk) rfl rfl

/-- R171: INIT leaves the context of the key's block, or of no byte. -/
theorem newContext_holdsData (s : State) (nn : BitVec 7) (hkk : kk.toNat ≤ s.variant.kkMax) :
    HoldsData (newContext nn kk (abortState s)) nn kk (countedBytes s.variant (keyBytes s kk.toNat) []) := by
  have hlen := countedBytes_keyBytes_length s hkk
  have hctx : contextOf (initialH s.variant nn kk) (countedBytes s.variant (keyBytes s kk.toNat) []) =
      { h := initialH s.variant nn kk
        buf := keyBlock s kk.toNat
        t := if kk = 0 then 0 else BitVec.ofNat 64 s.variant.bb } := by
    rw [contextOf_of_length_le _ (by rw [hlen]; split <;> omega), keyBlock_eq_blockOf, hlen,
      apply_ite (BitVec.ofNat 64)]
    rfl
  exact ⟨rfl, rfl, hctx.symm⟩

theorem HoldsData.counter (hs : HoldsData s nn kk data) (hlt : data.length < 2 ^ 64) : s.t.toNat = data.length := by
  rw [← contextOf_t_toNat (initialH s.variant nn kk) hlt, ← hs.context]
  rfl

/-- The context does not depend on the staging windows. -/
theorem HoldsData.restage (hs : HoldsData s nn kk data) (mem : Memory) : HoldsData { s with mem := mem } nn kk data :=
  ⟨hs.accepting, hs.digestLength, hs.context⟩

/-- R175: a completed UPDATE adds its bytes. -/
theorem HoldsData.update (hs : HoldsData s nn kk data) {len : BitVec 8} (hlen : len.toNat ≤ 128)
    (hlt : data.length + len.toNat < 2 ^ 64) (he : exec (.update len) s = .next s') :
    HoldsData s' nn kk (data ++ dinBytes s len.toNat) := by
  have ht := hs.counter (by omega)
  obtain ⟨V, q, h, buf, hexec, hfold, -⟩ := exec_update_eq_withContext hs.accepting hlen (by rwa [ht])
  cases he.symm.trans hexec
  refine ⟨?_, hs.digestLength, ?_⟩
  · change Phase.accepting (if len.toNat = 0 then s.phase else .absorbing) = true
    split
    · exact hs.accepting
    · rfl
  · rw [hs.context, absorbOne_foldl_contextOf _ _ (by rwa [dinBytes_length])] at hfold
    exact hfold.symm

/-- R175, R179: so do completed UPDATEs in a row. -/
theorem HoldsData.updates {msg : List Byte} (hu : Updates s msg s') (hs : HoldsData s nn kk data)
    (hlt : data.length + msg.length < 2 ^ 64) : HoldsData s' nn kk (data ++ msg) := by
  induction hu generalizing data with
  | done s => rwa [List.append_nil]
  | more s mem len s1 bs s2 hlen he _ ih =>
    rw [List.length_append, dinBytes_length] at hlt
    rw [← List.append_assoc]
    exact ih ((hs.restage mem).update hlen (by omega) he) (by rw [List.length_append, dinBytes_length]; omega)

theorem updates_variant {msg : List Byte} (hu : Updates s msg s') : s'.variant = s.variant := by
  induction hu with
  | done s => rfl
  | more s mem len s1 bs s2 hlen he _ ih => exact ih.trans (exec_kept he).variant

/-- R186: the padding changes nothing, as the buffer holds zeros from the fill on. -/
theorem HoldsData.padBuf (hs : HoldsData s nn kk data) (hlt : data.length < 2 ^ 64) :
    (padBuf s).dp.buf = s.dp.buf := by
  refine Vector.ext fun j hj => (padBuf_getElem s ⟨j, hj⟩).trans ?_
  have htail := contextOf_bufTail (initialH s.variant nn kk) hlt ⟨j, hj⟩
  rw [← hs.context] at htail
  split
  · rfl
  · next hfill => exact (htail (Nat.not_lt.mp hfill)).symm

/-- R180, R185: the digest is that of the last block's compression, with the counter at the total. -/
theorem HoldsData.final (hs : HoldsData s nn kk data) (hlt : data.length < 2 ^ 64) :
    ∃ s2, exec .final s = .next s2 ∧ s2.phase = .finalized ∧ s2.nn = nn ∧
      s2.dig = digestOf nn (compress (contextOf (initialH s.variant nn kk) data).h
        (leWord (contextOf (initialH s.variant nn kk) data).buf) (BitVec.ofNat 64 data.length) true) := by
  obtain ⟨V, hfinal⟩ := finalize_digests_compress s
  have ht : s.t = BitVec.ofNat 64 data.length := congrArg AbsorbCtx.t hs.context
  rw [hs.padBuf hlt, hs.digestLength, ht] at hfinal
  exact ⟨_, (exec_final_of_accepting hs.accepting).trans (congrArg _ hfinal), rfl, rfl, by rw [← hs.context]; rfl⟩

/-- Settles O28: INIT leaves the context of the key's block, each UPDATE that of a longer string, and FINAL compresses
the last block of it. -/
theorem streamingEqualsOneShotHash : Obligations.StreamingEqualsOneShotHash := by
  rintro s s1 nn kk msg hnn hmax hkk hlt ⟨s0, hinit, hu⟩
  cases hinit.symm.trans (exec_init_of_legal hnn hmax hkk)
  have hvariant : s1.variant = s.variant := updates_variant (s := newContext nn kk (abortState s)) hu
  have htotal : (countedBytes s.variant (keyBytes s kk.toNat) []).length + msg.length < 2 ^ 64 := by
    rwa [countedBytes_keyBytes_length s hkk]
  have hdata := HoldsData.updates hu (newContext_holdsData s nn hkk) htotal
  obtain ⟨s2, hexec, hphase, hnn2, hdig⟩ := hdata.final (by rwa [List.length_append])
  refine ⟨s2, hexec, hphase, hnn2, hdig.trans ?_⟩
  rw [← countedBytes_eq_append, hvariant]
  change _ = hashOf s.variant nn (keyBytes s kk.toNat) msg
  rw [hashOf, keyBytes_length, BitVec.ofNat_toNat, BitVec.setWidth_eq]
  rfl

end Sys2Proof.Machine
end

section
/-! PROOFS. The constant-time comparator as an equality of byte strings, what `exec` answers for COMPARE, and the
DIGEST window (43_result_compare.md). -/

namespace Sys2Proof.Machine

variable {s : State}

/-! ### COMPARE (R205, R207) -/

/-- A scan that ors every value into an accumulator ends at zero only from zero and with every value zero. -/
theorem foldl_or_eq_zero_iff (f : Nat → Byte) (is : List Nat) (acc : Byte) :
    is.foldl (fun acc i => acc ||| f i) acc = 0 ↔ acc = 0 ∧ ∀ i ∈ is, f i = 0 := by
  induction is generalizing acc with
  | nil => simp
  | cons i is ih =>
    rw [List.foldl_cons, ih, List.forall_mem_cons, ← and_assoc]
    exact and_congr_left' BitVec.or_eq_zero_iff

theorem nnMax_le (v : Variant) : v.nnMax ≤ 64 := by cases v <;> decide

/-- R205: the accumulator is zero iff no byte below `nn` differs. -/
theorem compareAcc_eq_zero_iff (hnn : s.nn.toNat ≤ 64) :
    compareAcc s = 0 ↔ ∀ i : Fin 64, i.val < s.nn.toNat → s.dig[i] = refByte s i.val := by
  have hbyte : ∀ i : Fin 64, s.dig[i.val]?.getD 0 ^^^ refByte s i.val = 0 ↔ s.dig[i] = refByte s i.val := by
    simp [BitVec.xor_eq_zero_iff]
  unfold compareAcc
  rw [foldl_or_eq_zero_iff, eq_self, true_and]
  constructor
  · exact fun h i hi => (hbyte i).mp (h i.val (List.mem_range.mpr hi))
  · intro h i hi
    have hi := List.mem_range.mp hi
    exact (hbyte ⟨i, hi.trans_le hnn⟩).mpr (h _ hi)

/-- R205, R207: the comparator tells whether the lengths and the bytes agree. -/
theorem compareEq_eq_decide (len : BitVec 8) (hnn : s.nn.toNat ≤ 64) :
    compareEq s len =
      decide (len.toNat = s.nn.toNat ∧ ∀ i : Fin 64, i.val < s.nn.toNat → s.dig[i] = refByte s i.val) := by
  rw [Bool.eq_iff_iff, decide_eq_true_iff, ← compareAcc_eq_zero_iff hnn, compareEq, Bool.and_eq_true, beq_iff_eq,
    beq_iff_eq]

theorem exec_compare_of_finalized (len : BitVec 8) (hp : s.phase = .finalized) :
    exec (.compare len) s = .next { s with eq := compareEq s len, cmpv := true } := by
  simp [exec, execCompare, hp]

theorem exec_compare_out_of_sequence (len : BitVec 8)
    (hp : s.phase = .none ∨ s.phase = .fresh ∨ s.phase = .absorbing) :
    exec (.compare len) s = .next (fail .seq s) := by
  rcases hp with hp | hp | hp <;> simp [exec, execCompare, hp]

theorem exec_compare_of_failed (len : BitVec 8) (hp : s.phase = .failed) : exec (.compare len) s = .next s := by
  simp [exec, execCompare, hp]

/-- Settles O29: the phase picks the outcome, and in FINALIZED the scan's result is the equality of the bytes. -/
theorem compareTellsEquality : Obligations.CompareTellsEquality := by
  refine ⟨fun s len hp hnn => ?_, fun s len => exec_compare_out_of_sequence len,
    fun s len => exec_compare_of_failed len, fun len => ?_⟩
  · rw [exec_compare_of_finalized len hp, compareEq_eq_decide len (hnn.trans (nnMax_le s.variant))]
  · exact encode_under_commandRow (row := { mnemonic := "COMPARE", pattern := 0x40000000, mask := 0xFFFFFF00 })
      (by decide) rfl

/-! ### The DIGEST window (R70, R201) -/

/-- R201: the mask of the window, byte by byte. -/
theorem digestByte_eq_ite (s : State) (k : Fin 64) :
    digestByte s k.val = if s.phase = .finalized ∧ k.val < s.nn.toNat then s.dig[k] else 0 := by
  unfold digestByte
  split <;> simp [*]

/-- R64: four bytes fit a word, which keeps each of them. -/
theorem ofNat_leNat_byte {bs : List Byte} (hlen : bs.length = 4) (i : Nat) :
    ((BitVec.ofNat 32 (leNat bs)).toNat >>> (8 * i)) % 256 = (bs.getD i 0).toNat := by
  have hlt := leNat_lt bs
  rw [hlen] at hlt
  rw [BitVec.toNat_ofNat, Nat.mod_eq_of_lt (hlt.trans_eq (by decide)), leNat_byte]

/-- R64: byte `i` of a DIGEST word is byte `k + i` of the window. -/
theorem digestWord_byte (s : State) (k : Nat) {i : Nat} (hi : i < 4) :
    ((digestWord s k).toNat >>> (8 * i)) % 256 = (digestByte s (k + i)).toNat := by
  rw [digestWord, ofNat_leNat_byte rfl]
  obtain rfl | rfl | rfl | rfl : i = 0 ∨ i = 1 ∨ i = 2 ∨ i = 3 := by omega
  all_goals rfl

/-- Settles O49: the word at the offset is a DIGEST word, whose bytes are masked. -/
theorem digestWindowIsMasked : Obligations.DigestWindowIsMasked := by
  intro s off hbusy _ hlo hhi
  refine ⟨digestWord s (off.toNat - digestBase), ?_, fun i k hi hk => ?_⟩
  · rw [hostRead_resp_of_not_busy off hbusy, hostReg_digest hlo hhi]
    rfl
  · have hoff : off.toNat - digestBase + i = k.val := by
      rw [digestBase]
      omega
    rw [digestWord_byte s _ hi, hoff, digestByte_eq_ite, apply_ite BitVec.toNat]
    rfl

end Sys2Proof.Machine
end

section
/-! PROOFS. Errors (60_exceptions.md): which command raises which code, and what FAILED refuses and who leaves it. -/

namespace Sys2Proof.Machine

variable {s : State}

/-! ### The failure entry (R230) -/

/-- Settles O30: the entry is its own definition, and a second one finds the first error standing. -/
theorem failureEntry : Obligations.FailureEntry :=
  ⟨fun _ _ => rfl, fail_fail⟩

/-- The failure entry raises no code but its own. -/
theorem fail_err_ne {code c : ErrCode} (hc : code ≠ c) (h : s.err ≠ c) : (fail code s).err ≠ c := by
  rw [fail_err]
  split
  · exact hc
  · exact h

/-- R231: a FAILED state is all that the failure entry would make of it. The proof writes the state out in the fields
that the entry sets, so that each can be replaced by the value the invariant gives it. -/
theorem fail_of_failed (h : s.Inv) (hp : s.phase = .failed) (code : ErrCode) : fail code s = s := by
  have hlive : s.phase.live = false := congrArg Phase.live hp
  have hcmpv : s.cmpv = false := Bool.eq_false_iff.mpr fun hc => by simpa [hp] using h.cmpvPhase hc
  have heq : s.eq = false := Bool.eq_false_iff.mpr fun he => by simpa [hcmpv] using h.eqCmpv he
  obtain ⟨hh, hbuf⟩ := h.erased hlive
  change fail code s = { s with
    err := s.err
    phase := s.phase
    dp := { s.dp with h := s.dp.h, buf := s.dp.buf }
    dig := s.dig
    nn := s.nn
    eq := s.eq
    cmpv := s.cmpv }
  rw [fail, if_neg (h.errPhase.mpr hp), hh, hbuf, h.digPhase (by simp [hp]), h.nnDead hlive, heq, hcmpv, hp]

/-! ### The codes a command raises (R222, R223) -/

theorem exec_init_err {nn kk : BitVec 7} {s' : State} (he : exec (.init nn kk) s = .next s') :
    s'.err = .none ∨ s'.err = .param := by
  by_cases hbad : nn.toNat = 0 ∨ s.variant.nnMax < nn.toNat ∨ s.variant.kkMax < kk.toNat
  · rw [exec_init_of_out_of_bounds hbad] at he
    cases he
    exact .inr rfl
  · rw [exec_init_of_legal (by omega) (by omega) (by omega)] at he
    cases he
    exact .inl rfl

theorem flushFull_err (s : State) : (flushFull s).err = s.err := by
  unfold flushFull
  split <;> rfl

/-- R178: absorbing raises no code but OVERFLOW. -/
theorem absorbBytes_err_ne {c : ErrCode} (hc : .overflow ≠ c) (bs : List Byte) (h : s.err ≠ c) :
    (absorbBytes bs s).err ≠ c := by
  induction bs generalizing s with
  | nil => exact h
  | cons b bs ih =>
    rw [absorbBytes_cons]
    split
    · exact fail_err_ne hc h
    · exact ih (by rwa [storeByte_err, flushFull_err])

/-- R226: where UPDATE is valid it raises no code but PARAM and OVERFLOW. -/
theorem exec_update_err_ne {c : ErrCode} {len : BitVec 8} {s' : State} (hp : s.phase.accepting = true)
    (hparam : .param ≠ c) (hoverflow : .overflow ≠ c) (h : s.err ≠ c) (he : exec (.update len) s = .next s') :
    s'.err ≠ c := by
  rw [exec_update_of_accepting len hp] at he
  split at he <;> cases he
  · exact absorbBytes_err_ne hoverflow _ h
  · exact fail_err_ne hparam h

theorem exec_update_of_failed (len : BitVec 8) (hp : s.phase = .failed) : exec (.update len) s = .next s := by
  simp [exec, execUpdate, hp]

theorem exec_final_of_failed (hp : s.phase = .failed) : exec .final s = .next s := by
  simp [exec, execFinal, hp]

/-- R205: COMPARE answers with the error code as it was, or with SEQ raised. -/
theorem exec_compare_err {len : BitVec 8} {s' : State} (he : exec (.compare len) s = .next s') :
    s'.err = s.err ∨ s' = fail .seq s := by
  cases hp : s.phase with
  | finalized =>
    rw [exec_compare_of_finalized len hp] at he
    cases he
    exact .inl rfl
  | failed =>
    rw [exec_compare_of_failed len hp] at he
    cases he
    exact .inl rfl
  | none | fresh | absorbing =>
    rw [exec_compare_out_of_sequence len (by simp [hp])] at he
    cases he
    exact .inr rfl

/-- Settles O31: the phase picks the outcome of a command, and where it is valid the codes it can raise are not SEQ. -/
theorem outOfSequenceCommandsFail : Obligations.OutOfSequenceCommandsFail := by
  refine ⟨fun s len hp => ⟨exec_update_out_of_sequence len hp, exec_final_out_of_sequence hp⟩,
    fun s len => exec_compare_out_of_sequence len,
    fun s len hp => ⟨exec_update_of_failed len hp, exec_final_of_failed hp, exec_compare_of_failed len hp⟩,
    fun s s' nn kk he => ?_, fun s s' len hp herr he => ?_, fun s s' len hp herr he => ?_⟩
  · rcases he with he | he
    · rcases exec_init_err he with h | h <;> simp [h]
    · cases he
      simp
  · rcases he with he | he
    · exact exec_update_err_ne hp (by decide) (by decide) herr he
    · rw [exec_final_of_accepting hp] at he
      cases he
      exact herr
  · rw [exec_compare_of_finalized len hp] at he
    cases he
    exact herr

/-- Settles O32: a bad operand of INIT fails on a dropped context; COMPARE raises SEQ or nothing. -/
theorem operandsOutOfBoundsFail : Obligations.OperandsOutOfBoundsFail := by
  refine ⟨fun s nn kk hbad => ⟨_, exec_init_of_out_of_bounds hbad, rfl, rfl, rfl, rfl⟩,
    fun s len => exec_update_of_gt, fun s s' len herr he => ?_⟩
  rcases exec_compare_err he with h | rfl
  · rwa [h]
  · exact fail_err_ne (by decide) herr

/-! ### The engine's turn (R256) -/

theorem step_of_engine {rest : List BusEvent} (hissue : NoIssue s) (hbusy : s.busy = true)
    (hbus : s.bus = .engine :: rest) : step s = complete { s with bus := rest } :=
  (step_of_event hissue hbus).trans (engineTurn_busy hbusy)

theorem complete_of_executePending {t : State} (h : executePending s = .next t) :
    complete s = .next (endCommand t) := by
  rw [complete, h, mapNext_next]

theorem executePending_of_error {why : Reject} (h : decodeCmd s.pending = .error why) :
    executePending s = .next (illegalWord s) := by
  rw [executePending, h]

theorem illegalWord_of_failed (hp : s.phase = .failed) : illegalWord s = s := by
  simp [illegalWord, hp]

theorem illegalWord_of_not_failed (hp : s.phase ≠ .failed) : illegalWord s = fail .illegal s := by
  unfold illegalWord
  split
  · next h => exact absurd h hp
  all_goals rfl

/-- R93, R221: a word that fits no row is rejected. -/
theorem decodeCmd_error_of_fits_no_row {cw : BitVec 32} (h : ∀ row ∈ commandTable, row.fits cw = false) :
    ∃ why, decodeCmd cw = .error why := by
  cases hdec : decodeCmd cw with
  | error why => exact ⟨why, rfl⟩
  | ok i =>
    obtain ⟨row, hrow, -, hfit⟩ := commandRow_of_decodeCmd hdec
    simp [h row hrow] at hfit

/-- Settles O38: the word does not decode, so the turn is the illegal word's rule, which the phase decides. -/
theorem illegalWordsFail : Obligations.IllegalWordsFail := by
  intro s rest hissue hbusy hbus hrows
  obtain ⟨why, hdec⟩ := decodeCmd_error_of_fits_no_row hrows
  have hstep : step s = .next (endCommand (illegalWord { s with bus := rest })) :=
    (step_of_engine hissue hbusy hbus).trans (complete_of_executePending (executePending_of_error hdec))
  refine ⟨fun hp => ?_, fun hp => ?_⟩
  · rw [hstep, illegalWord_of_not_failed (s := { s with bus := rest }) hp]
  · rw [hstep, illegalWord_of_failed (s := { s with bus := rest }) hp]

/-! ### FAILED (R231, R232) -/

/-- R231: in FAILED every command but INIT and ABORT is refused. -/
theorem exec_of_failed {cw : BitVec 32} {i : Instr} (hdec : decodeCmd cw = .ok i) (habort : i ≠ .abort)
    (hinit : ∀ nn kk, i ≠ .init nn kk) (hp : s.phase = .failed) : exec i s = .next s := by
  rcases decodeCmd_cases hdec with ⟨nn, kk, rfl⟩ | ⟨len, rfl⟩ | rfl | ⟨len, rfl⟩ | rfl
  · exact absurd rfl (hinit nn kk)
  · exact exec_update_of_failed len hp
  · exact exec_final_of_failed hp
  · exact exec_compare_of_failed len hp
  · exact absurd rfl habort

theorem executePending_of_failed (hp : s.phase = .failed)
    (hother : ∀ i, decodeCmd s.pending = .ok i → i ≠ .abort ∧ ∀ nn kk, i ≠ .init nn kk) :
    executePending s = .next s := by
  cases hdec : decodeCmd s.pending with
  | error why => rw [executePending_of_error hdec, illegalWord_of_failed hp]
  | ok i =>
    obtain ⟨habort, hinit⟩ := hother i hdec
    rw [executePending, hdec]
    exact exec_of_failed hdec habort hinit hp

/-- R258: a recorded violation has nothing to raise in FAILED, so only the handshake ends. -/
theorem endCommand_of_failed (h : s.Inv) (hp : s.phase = .failed) :
    endCommand s = { s with viol := false, busy := false } := by
  rw [endCommand, fail_of_failed h hp, ite_self]

/-- Settles O34: the pending word is refused, and ending the handshake raises nothing more. -/
theorem failedRefusesEverythingElse : Obligations.FailedRefusesEverythingElse := by
  intro s rest h hissue hp hbusy hbus hother
  rw [step_of_engine hissue hbusy hbus,
    complete_of_executePending (executePending_of_failed (s := { s with bus := rest }) hp hother),
    endCommand_of_failed (inv_bus h rest) hp]

/-- Ending the handshake of a FAILED state leaves it FAILED, a recorded violation or not. -/
theorem endCommand_phase_of_failed (hp : s.phase = .failed) : (endCommand s).phase = .failed := by
  unfold endCommand
  split
  · rfl
  · exact hp

@[simp] theorem busRead_phase (off : BitVec 12) (width : AccessWidth) (s : State) :
    (busRead off width s).phase = s.phase := by
  obtain ⟨resp, draws, heq⟩ := busRead_frame off width s
  rw [heq]

@[simp] theorem busWrite_phase (off : BitVec 12) (width : AccessWidth) (val : BitVec 32) (s : State) :
    (busWrite off width val s).phase = s.phase := by
  unfold busWrite
  split
  · next hserved => cases hostWrite_cases (servedAccess_iff.mp hserved).2 val s <;> simp [*]
  · rfl

/-- Settles O33: of the cases of a step from FAILED, only a reset, an INIT and an ABORT do not keep the phase. -/
theorem onlyInitAbortOrResetLeaveFailed : Obligations.OnlyInitAbortOrResetLeaveFailed := by
  intro s s' hnone hp hstep hleft
  cases step_cases hstep with
  | microOp u i t hissue hdec hexec heq => simp [show s.dp.seq.issue = none from hnone] at hissue
  | command bus i t hissue hbusy hbus hdec hexec heq =>
    refine .inr ⟨hbusy, hbus.imp And.left fun h => by rw [h, List.head?_cons], ?_⟩
    by_contra hother
    obtain ⟨hinit, habort⟩ := not_or.mp hother
    have hrefused := exec_of_failed (s := { s with bus := bus }) hdec (fun h => habort (h ▸ hdec))
      (fun nn kk h => hinit ⟨nn, kk, h ▸ hdec⟩) hp
    cases hexec.symm.trans hrefused
    exact hleft (heq ▸ endCommand_phase_of_failed hp)
  | illegal bus why hissue hbusy hbus hdec heq =>
    rw [illegalWord_of_failed (s := { s with bus := bus }) hp] at heq
    exact absurd (heq ▸ endCommand_phase_of_failed hp) hleft
  | idle bus hissue hbusy hbus heq => simp [heq, hp] at hleft
  | read off width bus hissue hbus heq => simp [heq, hp] at hleft
  | write off width val bus hissue hbus heq => simp [heq, hp] at hleft
  | reset bus hissue hbus heq => exact .inl (by rw [hbus, List.head?_cons])

end Sys2Proof.Machine
end

section
/-! PROOFS. Reset and hazards (70_reset_and_hazards.md): what the engine's turn and each event of the bus do, so that
nothing is stuck and every started command completes; a write and a read while busy; reset. -/

namespace Sys2Proof.Machine

variable {s : State}

/-! ### The end of the handshake (R225, R256) -/

@[simp] theorem endCommand_busy (s : State) : (endCommand s).busy = false := rfl

@[simp] theorem endCommand_viol (s : State) : (endCommand s).viol = false := rfl

@[simp] theorem endCommand_bus (s : State) : (endCommand s).bus = s.bus := by
  unfold endCommand
  split <;> rfl

/-- R225: a recorded violation leaves FAILED, with BUSY's code or the one that stood before it. -/
theorem endCommand_failed_of_viol (h : s.viol = true) :
    (endCommand s).phase = .failed ∧ (endCommand s).err ≠ .none := by
  rw [endCommand, if_pos h]
  exact ⟨rfl, fail_err_ne_none (by decide)⟩

/-! ### The pending word (R256) -/

theorem executePending_of_ok {i : Instr} (h : decodeCmd s.pending = .ok i) : executePending s = exec i s := by
  rw [executePending, h]

/-- R260: performing the pending word always goes on, a command or not, and leaves the host's side alone. -/
theorem executePending_next (s : State) : ∃ t, executePending s = .next t ∧ HostSideKept s t := by
  cases hdec : decodeCmd s.pending with
  | ok i =>
    obtain ⟨t, ht⟩ := exec_command_next hdec s
    exact ⟨t, (executePending_of_ok hdec).trans ht, exec_kept ht⟩
  | error why => exact ⟨illegalWord s, executePending_of_error hdec, illegalWord_kept s⟩

theorem step_of_command {rest : List BusEvent} {i : Instr} (hissue : NoIssue s) (hbusy : s.busy = true)
    (hbus : s.bus = .engine :: rest) (hdec : decodeCmd s.pending = .ok i) :
    step s = mapNext endCommand (exec i { s with bus := rest }) := by
  rw [step_of_engine hissue hbusy hbus, complete, executePending_of_ok (s := { s with bus := rest }) hdec]

/-- Settles O35: the engine's turn is `complete`, and an illegal word's rule leaves the recorded violation as it is. -/
theorem stepCompletesThePendingCommand : Obligations.StepCompletesThePendingCommand := by
  intro s rest hissue hbusy hbus
  refine ⟨fun i hdec => step_of_command hissue hbusy hbus hdec, fun why hdec => ?_⟩
  · rw [step_of_engine hissue hbusy hbus,
      complete_of_executePending (executePending_of_error (s := { s with bus := rest }) hdec), endCommand,
      (illegalWord_kept { s with bus := rest }).viol]

/-- Settles O39: performing the word keeps the violation and the events to come, and `endCommand` ends the handshake. -/
theorem completionEndsTheHandshake : Obligations.CompletionEndsTheHandshake := by
  intro s rest hissue hbusy hbus
  obtain ⟨t, ht, hkept⟩ := executePending_next { s with bus := rest }
  refine ⟨endCommand t, (step_of_engine hissue hbusy hbus).trans (complete_of_executePending ht), endCommand_busy t,
    endCommand_viol t, (endCommand_bus t).trans hkept.bus, fun hviol => ?_⟩
  exact endCommand_failed_of_viol (hkept.viol.trans hviol)

/-- Settles O37: a placed command stands pending with the engine's turn next, a placed micro-op at the ALU's input. -/
theorem placedWordRunsNext : Obligations.PlacedWordRunsNext := by
  refine ⟨fun s cw i hdec => ?_, fun s u i hdec => ?_⟩
  · have hplace : s.withFetchWord 32 cw.toNat = placeWord s (.cmd32 cw) := by
      simp [State.withFetchWord, CodeWord.ofTable]
    rw [hplace]
    exact step_of_command (s := placeWord s (.cmd32 cw)) rfl rfl rfl hdec
  · have hplace : s.withFetchWord 16 u.toNat = placeWord s (.uop16 u) := by
      simp [State.withFetchWord, CodeWord.ofTable]
    rw [hplace]
    exact stepRunsTheIssuedMicroOp (placeWord s (.uop16 u)) u i rfl hdec

/-! ### No micro-op is left at the ALU's input -/

/-- R160: a compression ends with the sequencer at rest. -/
theorem compressState_noIssue (last : Bool) (s : State) : NoIssue (compressState last s) := rfl

theorem flushFull_noIssue (h : NoIssue s) : NoIssue (flushFull s) := by
  unfold flushFull
  split
  · exact compressState_noIssue false s
  · exact h

theorem absorbBytes_noIssue (bs : List Byte) (h : NoIssue s) : NoIssue (absorbBytes bs s) := by
  induction bs generalizing s with
  | nil => exact h
  | cons b bs ih =>
    rw [absorbBytes_cons]
    split
    · exact h
    · exact ih (s := storeByte b (flushFull s)) (flushFull_noIssue h)

/-- Of the instructions, only UPDATE and FINAL reach the sequencer, and a compression leaves it at rest. -/
theorem exec_noIssue {i : Instr} {s' : State} (he : exec i s = .next s') (h : NoIssue s) : NoIssue s' := by
  rcases exec_command_or_setVregs he with ⟨nn, kk, rfl⟩ | ⟨len, rfl⟩ | rfl | ⟨len, rfl⟩ | rfl | ⟨V, rfl⟩
  · simp only [exec, execInit] at he
    split at he <;> cases he <;> exact h
  · simp only [exec, execUpdate] at he
    split at he
    case h_1 | h_2 | h_3 =>
      cases he
      exact h
    case h_4 | h_5 =>
      split at he <;> cases he
      · exact absorbBytes_noIssue _ h
      · exact h
  · simp only [exec, execFinal] at he
    split at he <;> cases he
    case h_1 | h_2 | h_3 => exact h
    case h_4 | h_5 => exact compressState_noIssue true (padBuf s)
  · simp only [exec, execCompare] at he
    split at he <;> cases he <;> exact h
  · cases he
    exact h
  · exact h

theorem illegalWord_noIssue (h : NoIssue s) : NoIssue (illegalWord s) := by
  unfold illegalWord
  split <;> exact h

theorem endCommand_noIssue (h : NoIssue s) : NoIssue (endCommand s) := by
  unfold endCommand
  split <;> exact h

theorem executePending_noIssue {t : State} (he : executePending s = .next t) (h : NoIssue s) : NoIssue t := by
  unfold executePending at he
  split at he
  · exact exec_noIssue he h
  · cases he
    exact illegalWord_noIssue h

/-! ### Nothing is stuck (R260) -/

/-- R256, R260: the engine's turn goes on, takes no event, and leaves the block not busy. -/
theorem engineTurn_next (h : NoIssue s) :
    ∃ s', engineTurn s = .next s' ∧ NoIssue s' ∧ s'.bus = s.bus ∧ s'.busy = false := by
  cases hbusy : s.busy with
  | false => exact ⟨s, engineTurn_idle hbusy, h, rfl, hbusy⟩
  | true =>
    obtain ⟨t, ht, hkept⟩ := executePending_next s
    exact ⟨endCommand t, (engineTurn_busy hbusy).trans (complete_of_executePending ht),
      endCommand_noIssue (executePending_noIssue ht h), (endCommand_bus t).trans hkept.bus, endCommand_busy t⟩

/-- A write touches neither the sequencer nor the events to come. -/
theorem busWrite_noIssue_bus (off : BitVec 12) (width : AccessWidth) (val : BitVec 32) (h : NoIssue s) :
    NoIssue (busWrite off width val s) ∧ (busWrite off width val s).bus = s.bus := by
  unfold busWrite
  split
  · next hserved =>
    cases hostWrite_cases (servedAccess_iff.mp hserved).2 val s with
    | dropped _ heq | command _ _ heq | stored _ _ _ heq | ignored _ _ _ heq =>
      rw [heq]
      exact ⟨h, rfl⟩
  · exact ⟨h, rfl⟩

/-- U18: every event goes on, with the events after it left to come. -/
theorem takeEvent_next (e : BusEvent) (h : NoIssue s) :
    ∃ s', takeEvent e s = .next s' ∧ NoIssue s' ∧ s'.bus = s.bus := by
  cases e with
  | read off width =>
    obtain ⟨resp, draws, heq⟩ := busRead_frame off width s
    exact ⟨_, congrArg Host.Outcome.next heq, h, rfl⟩
  | write off width val =>
    exact ⟨busWrite off width val s, rfl, busWrite_noIssue_bus off width val h⟩
  | engine =>
    obtain ⟨s', hs', hissue, hbus, -⟩ := engineTurn_next h
    exact ⟨s', hs', hissue, hbus⟩
  | reset => exact ⟨applyReset s, rfl, rfl, rfl⟩

theorem step_of_empty_bus (h : NoIssue s) (hbus : s.bus = []) : step s = engineTurn s :=
  (step_of_noIssue h).trans (nextEvent_nil hbus)

/-- Settles O58: the step is the engine's turn or an event of the bus, and both go on. -/
theorem nothingIsStuck : Obligations.NothingIsStuck := by
  intro s hissue
  cases hbus : s.bus with
  | nil =>
    obtain ⟨s', hs', -⟩ := engineTurn_next hissue
    exact ⟨s', (step_of_empty_bus hissue hbus).trans hs'⟩
  | cons e rest =>
    obtain ⟨s', hs', -⟩ := takeEvent_next (s := { s with bus := rest }) e hissue
    exact ⟨s', (step_of_event hissue hbus).trans hs'⟩

/-! ### Every started command completes (R260) -/

theorem core_run_succ {M : Host.Core} {s s' : M.State} (h : M.step s = .next s') (k : Nat) :
    M.run (k + 1) s = M.run k s' := by
  rw [Host.Core.run, h]

/-- R260: one step per event to come, and the engine's turn after the last. -/
theorem run_events_then_not_busy {bus : List BusEvent} (hissue : NoIssue s) (hbus : s.bus = bus) :
    ∃ s', Sys2Proof.core.run (bus.length + 1) s = .next s' ∧ s'.busy = false := by
  induction bus generalizing s with
  | nil =>
    obtain ⟨s', hs', -, -, hidle⟩ := engineTurn_next hissue
    exact ⟨s', core_run_succ ((step_of_empty_bus hissue hbus).trans hs') 0, hidle⟩
  | cons e rest ih =>
    obtain ⟨t, ht, htissue, htbus⟩ := takeEvent_next (s := { s with bus := rest }) e hissue
    obtain ⟨s', hs', hidle⟩ := ih htissue htbus
    exact ⟨s', (core_run_succ ((step_of_event hissue hbus).trans ht) _).trans hs', hidle⟩

/-- Settles O59: by induction on the events to come; the turn on an empty list is the one an engine event gives. -/
theorem everyCommandCompletes : Obligations.EveryCommandCompletes := by
  refine ⟨fun s hissue => run_events_then_not_busy hissue rfl, fun s hissue hbus => ?_⟩
  calc step s = engineTurn s := step_of_empty_bus hissue hbus
    _ = engineTurn { s with bus := [] } := by rw [state_bus_self hbus]
    _ = step { s with bus := [.engine] } := (step_of_event (s := { s with bus := [.engine] }) hissue rfl).symm

/-! ### Host accesses while busy (R255, R258, R259) -/

/-- R255: with the block not busy a write to CMD starts a command. -/
theorem hostWrite_cmd (val : BitVec 32) (h : s.busy = false) :
    hostWrite 0x004 val s = { s with pending := val, viol := false, busy := true, resp := .ack } := by
  cases hostWrite_cases (off := 0x004) rfl val s with
  | command _ _ heq => exact heq
  | dropped hbusy => simp [h] at hbusy
  | stored _ hlo => exact absurd hlo (by decide)
  | ignored _ _ hcmd => exact absurd rfl hcmd

/-- Settles O40: the step of the write is `hostWrite`, which `busy` decides. -/
theorem commandWriteStartsOrIsDropped : Obligations.CommandWriteStartsOrIsDropped := by
  intro s rest off val hissue hal hbus
  rw [step_of_write hissue hal hbus]
  refine ⟨?_, fun hbusy => ⟨.ack, ?_⟩⟩
  · rintro hidle rfl
    exact ⟨.ack, by rw [hostWrite_cmd (s := { s with bus := rest }) val hidle]⟩
  · rw [hostWrite_of_busy (s := { s with bus := rest }) off val hbusy]

/-- Settles O50: the registers the table names answer as when not busy; STATUS is drawn, with BUSY forced to 1. -/
theorem readsWhileBusy : Obligations.ReadsWhileBusy := by
  intro s hbusy
  refine ⟨?_, hostRead_resp_of_specified rfl rfl s, statusShowsItsFields.2 s hbusy, fun off hal => ?_⟩
  · exact (hostRead_resp_of_specified rfl rfl s).trans (congrArg BusResp.data (idWord_eq s.variant))
  obtain ⟨hkey, hreserved, -⟩ := stagingWindowsRead s off hal
  refine ⟨fun hoff => ?_, fun hlo hhi => hostRead_resp_din_ref hlo hhi s, hostRead_frame off s⟩
  by_cases hwindow : 0x040 ≤ off.toNat ∧ off.toNat < 0x080
  · obtain ⟨hlo, hhi⟩ := hwindow
    exact hkey hlo hhi
  · exact hreserved (by omega)

/-! ### Reset (R250, R251) -/

/-- Settles O54: a reset is an event like any other, and the step that takes it is `applyReset`. -/
theorem resetIsTakenAtAnyTime : Obligations.ResetIsTakenAtAnyTime := by
  intro s rest hissue hbus
  exact ⟨.idle, s.draws, step_of_event hissue hbus⟩

end Sys2Proof.Machine
end
